-- ==== Sys2Proof/Word.lean ====
section
/-! DEFINITION. The words of the block (00_scope.md R10): bytes, 16-bit fields and 32-bit registers. -/

namespace Sys2Proof

/-- A byte of a line, of a frame or of a buffer (R10). -/
abbrev Byte := BitVec 8

/-- A 16-bit field: a CRC, a length, an offset, a count (R10, R22). -/
abbrev Half := BitVec 16

/-- A register of the block, a bus value, a time (R10). -/
abbrev Word := BitVec 32

end Sys2Proof
end

