-- ==== Sys2Proof/Config.lean ====
section
/-! DEFINITION. What an implementation fixes (00_scope.md R5 to R9) and the free values that the spec
leaves open (93_implementation_defined.md U1, U2, U3). -/

namespace Sys2Proof

/-- `DEADLINE_CMP` (R7): whether a limit that is exactly reached has expired. -/
inductive DeadlineCmp where
  | gt
  | ge
  deriving DecidableEq, Repr

/-- `CR_BLANK_POLICY` (R8): what a CR exit does with an empty line. -/
inductive CrBlankPolicy where
  | surface
  | suppress
  deriving DecidableEq, Repr

/-- `CKSUM_TRAILING` (R9): what the decoder does with bytes after the checksum digits. -/
inductive CksumTrailing where
  | ignore
  | reject
  deriving DecidableEq, Repr

/-- The parameters of one implementation. They never change while the machine runs. -/
structure Params where
  lbufSize : Nat
  deadlineCmp : DeadlineCmp
  crBlank : CrBlankPolicy
  cksumTrailing : CksumTrailing
  deriving DecidableEq, Repr

/-- The spec's defaults (R5, R7, R8, R9). -/
def Params.default : Params :=
  { lbufSize := 256, deadlineCmp := .gt, crBlank := .surface, cksumTrailing := .ignore }

/-- `OBUF_SIZE = LBUF_SIZE + 7` (R5). -/
def Params.obufSize (p : Params) : Nat := p.lbufSize + 7

namespace Config

/-- The grace window of a CR, in milliseconds (R6). -/
def graceMs : Word := 50

/-- The default timeout of the host procedures, in milliseconds (R10, 45_host_procedures.md R187). -/
def defaultTimeoutMs : Word := 1000

/-- FREE VALUE (U1, U3): the byte that draw number `n` gives the buffer byte at local address `a`. -/
opaque freeByte (n a : Nat) : Byte

/-- FREE VALUE (U1): the LEN that draw number `n` gives. -/
opaque freeLen (n : Nat) : Half

/-- FREE VALUE (U2, 20_memory.md R59): the bus value that draw number `n` gives a read of the unstable result
register at offset `a`, which holds `v` (log 25). -/
opaque freeRead (n a : Nat) (v : Word) : Word

/-- FREE VALUE (U2, 20_memory.md R59): the byte that draw number `n` gives a read of the unstable window byte at
local address `a`, which holds `b` (log 25). -/
opaque freeReadByte (n a : Nat) (b : Byte) : Byte

end Config

end Sys2Proof
end

