-- ==== Sys2Proof/Syntax.lean ====
section
/-! DEFINITION. The commands of the block (30_encoding.md R73, one constructor per row of the opcode
table) and the host's bus operations (R50, R76). -/

namespace Sys2Proof

/-- The six commands. No command has an operand field (R72): every operand comes from a register. -/
inductive Instr where
  | crcx
  | crcc
  | readline
  | decode
  | verify
  | encode
  deriving DecidableEq, Repr

/-- The width of a host access (20_memory.md R50). -/
inductive Width where
  | w1
  | w2
  | w4
  deriving DecidableEq, Repr

/-- One host access to the local address space of 14-bit byte addresses (R50). -/
inductive Access where
  | read (addr : BitVec 14) (width : Width)
  | write (addr : BitVec 14) (width : Width) (value : Word)
  deriving DecidableEq, Repr

/-- One line of a host program (R76): a bus operation, or `wait`. -/
inductive ScriptOp where
  | acc (a : Access)
  | wait
  deriving DecidableEq, Repr

/-- A call of host software: one of the Connection's procedures (45_host_procedures.md R181 to R186),
or a straight-line host program (R76). `receiveData` without a prefix is the call with the empty prefix,
which matches every payload (92_eei_decisions.md D40). -/
inductive Call where
  | receiveData (pfx : List Byte) (size : Nat) (timeout : Word)
  | waitUntilAvailable (timeout : Word)
  | sendData (payload : List Byte)
  | program (ops : List ScriptOp)
  deriving DecidableEq, Repr

end Sys2Proof
end

