-- ==== Sys2Proof/WellFormed.lean ====
section
/-! DEFINITION. The checks a term of the model must meet. A command has no operand field
(30_encoding.md R72), so every command is well formed; the parameter LBUF_SIZE has the bounds of
00_scope.md R5. -/

namespace Sys2Proof

/-- Every command is well formed: it has no field that could be out of range (R72, R73). -/
def Instr.wf : Instr → Bool
  | .crcx => true
  | .crcc => true
  | .readline => true
  | .decode => true
  | .verify => true
  | .encode => true

/-- `8 <= LBUF_SIZE <= 4088` (R5). -/
def Params.wf (p : Params) : Bool := decide (8 ≤ p.lbufSize) && decide (p.lbufSize ≤ 4088)

end Sys2Proof
end

