-- ==== Sys2Proof/Decode.lean ====
section
/-! DEFINITION. The command decoder (30_encoding.md R70, R71), total on every 32-bit word, and after it
the encoder (R73). -/

namespace Sys2Proof

/-- Why a word is illegal (R74). All three raise the command error ILLEGAL. -/
inductive Illegal where
  /-- A reserved bit (7:4 or 31:9) is set. -/
  | reservedBit
  /-- OPC is 0 or 6 to 15. -/
  | opcode
  /-- VAR is 1 and OPC is not 1. -/
  | variant
  deriving DecidableEq, Repr

/-- Field OPC (R71). -/
def opcOf (w : Word) : BitVec 4 := w.extractLsb' 0 4

/-- Field VAR (R71). -/
def varOf (w : Word) : BitVec 1 := w.extractLsb' 8 1

/-- The reserved bits 7:4 and 31:9 are 0 (R71). -/
def reservedClear (w : Word) : Bool := w.extractLsb' 4 4 == 0#4 && w.extractLsb' 9 23 == 0#23

/-- The decoder of R70, field by field as R71 lays the word out. -/
def decodeWord (w : Word) : Except Illegal Instr :=
  if reservedClear w then
    match (opcOf w).toNat, (varOf w).toNat with
    | 1, 0 => .ok .crcx
    | 1, 1 => .ok .crcc
    | 2, 0 => .ok .readline
    | 3, 0 => .ok .decode
    | 4, 0 => .ok .verify
    | 5, 0 => .ok .encode
    | 2, _ => .error .variant
    | 3, _ => .error .variant
    | 4, _ => .error .variant
    | 5, _ => .error .variant
    | _, _ => .error .opcode
  else .error .reservedBit

/-- The fields of a command word put together (R71): `{31:9 = 0, VAR, 7:4 = 0, OPC}`. -/
def packWord (var : BitVec 1) (opc : BitVec 4) : Word := 0#23 ++ var ++ 0#4 ++ opc

/-- The word of a command (R73). -/
def encode : Instr → Word
  | .crcx => packWord 0 1
  | .crcc => packWord 1 1
  | .readline => packWord 0 2
  | .decode => packWord 0 3
  | .verify => packWord 0 4
  | .encode => packWord 0 5

/-- The instruction the decoder reads from an instruction of `nbits` bits numbered as the opcode table
numbers them. A command is one 32-bit word (R75) and a register value is not split into bytes
(20_memory.md R52), so the word is given to the decoder as it stands. -/
def decodeTableWord (nbits w : Nat) : Option Instr :=
  if nbits ≤ 32 then
    match decodeWord (BitVec.ofNat 32 (w % 2 ^ nbits)) with
    | .ok i => some i
    | .error _ => none
  else none

end Sys2Proof
end

