-- ==== Sys2Proof/Machine/State.lean ====
section
/-! DEFINITION. The state of the block (10_state.md R22, R39), of its ports (R40, R41) and of the agents
around it (00_scope.md R16), as plain data, and the state after reset (70_reset_and_hazards.md R220). -/

namespace Sys2Proof.Machine

/-- Result codes, `STATUS.RES` (10_state.md R23). Codes 8 to 15 are never produced. -/
inductive Res where
  | none
  | done
  | line
  | timeout
  | found
  | notFound
  | valid
  | mismatch
  deriving DecidableEq, Repr

/-- Command errors, `STATUS.ERR` (R23, 60_exceptions.md R200). Codes 3 to 15 are never produced. -/
inductive Err where
  | none
  | illegal
  | range
  deriving DecidableEq, Repr

/-- `LR_STATE` (R39). The terminal states DONE and TIMED_OUT are not held. -/
inductive LrState where
  | idle
  | accumulating
  | crPending
  deriving DecidableEq, Repr

/-- Where the host is in a Connection procedure (45_host_procedures.md). Each position names what the
host does once the bus operations it has issued are over. -/
inductive Proc where
  /-- No procedure runs. -/
  | none
  /-- receiveData: `rd NOW` issued, its value is t0 (R181). -/
  | recvNow (pfx : List Byte) (size : Nat) (timeout : Word)
  /-- receiveData: at the head of the loop (R181). -/
  | recvLoop (pfx : List Byte)
  /-- receiveData: `cmd READLINE; wait; rd STATUS` issued. -/
  | recvLine (pfx : List Byte)
  /-- receiveData: `cmd VERIFY; wait; rd STATUS` issued. -/
  | recvFrame (pfx : List Byte)
  /-- receiveData: `rd LEN` issued. -/
  | recvLen (pfx : List Byte)
  /-- receiveData: `rdb LBUF[at]` issued, `left` more bytes of LBUF to read after it. -/
  | recvByte (pfx : List Byte) (pos left : Nat)
  /-- waitUntilAvailable: `rd NOW` issued, its value is t0 (R185). -/
  | availNow (timeout : Word)
  /-- waitUntilAvailable: `rd STATUS` issued. -/
  | availStatus (t0 timeout : Word)
  /-- waitUntilAvailable: `rd NOW` issued to look at the deadline. -/
  | availTime (t0 timeout : Word)
  /-- sendData: load, encode issued (R186). -/
  | sendDone
  /-- sendData: `rd OLEN` issued. -/
  | sendLen
  /-- sendData: `rdb OBUF[at]` issued, `left` more bytes of OBUF to read after it. -/
  | sendByte (pos left : Nat)
  deriving DecidableEq, Repr

/-- What a procedure returned (R181, R182, R185, R186). -/
inductive ProcResult where
  /-- receiveData: `(false, none)` (R181, R184). -/
  | failed
  /-- receiveData: `(true, payload)`. -/
  | received (payload : List Byte)
  /-- waitUntilAvailable. -/
  | available (b : Bool)
  /-- sendData: the frame handed to the transport (R186). -/
  | sent (frame : List Byte)
  deriving DecidableEq, Repr

/-- The host (00_scope.md R16): its program, its procedure, the value its last bus read returned, and its
own buffer. -/
structure HostAgent where
  script : List ScriptOp
  proc : Proc
  rdata : Word
  buf : List Byte
  result : Option ProcResult
  deriving DecidableEq, Repr

/-- The host with nothing to do. DESIGN CHOICE (log 17): the spec gives the host no reset. -/
def HostAgent.quiet : HostAgent :=
  { script := [], proc := .none, rdata := 0, buf := [], result := Option.none }

/-- One move of one agent (R16), or the reset input (R221). -/
inductive Event where
  /-- The block controller takes one step (70_reset_and_hazards.md R232). -/
  | block
  /-- The host takes its next step: one bus access, or a decision of its procedure. -/
  | host
  /-- The host's software calls a procedure or starts a program. -/
  | call (c : Call)
  /-- The receive source appends bytes to the stream (10_state.md R40). -/
  | arrive (bs : List Byte)
  /-- The clock advances by `d` milliseconds (R41). -/
  | tick (d : Word)
  /-- The reset input RST (R221). -/
  | rst
  deriving DecidableEq, Repr

/-- The contents of LBUF and OBUF: pairs of a local address (20_memory.md R51) and a byte, addresses
strictly rising. An address that is not listed holds no written byte. -/
abbrev Memory := List Host.Cell

/-- The whole machine. `STATUS.BUSY` is `curOp` being some word (log 4); `STATUS.LRSTATE` and `STATUS.RXAV`
are views of `lrState` and `rx`. -/
structure State where
  /-- The parameters of the block (00_scope.md R5 to R9); `CFG` reads one of them (R36). -/
  params : Params
  /-- `STATUS.RES` (R23). -/
  res : Res
  /-- `STATUS.ERR` (R23). -/
  err : Err
  /-- `STATUS.OVR` (R23). -/
  ovr : Bool
  /-- `STATUS.TRUNC` (R23). -/
  trunc : Bool
  /-- `SIZE` (R24). -/
  size : Half
  /-- `T0` (R25). -/
  t0 : Word
  /-- `TMO` (R26). -/
  tmo : Word
  /-- `LEN` (R27). -/
  len : Half
  /-- `A_OFF` (R28). -/
  aOff : Half
  /-- `A_CNT` (R29). -/
  aCnt : Half
  /-- `CRC` (R30). -/
  crc : Half
  /-- `CKSUM.VAL` (R31). -/
  cksumVal : Half
  /-- `CKSUM.OVF` (R31). -/
  cksumOvf : Bool
  /-- `COMMA.IDX` (R32). -/
  commaIdx : Half
  /-- `COMMA.F` (R32). -/
  commaF : Bool
  /-- `TERM` (R33). -/
  term : Byte
  /-- `OLEN` (R34). -/
  olen : Half
  /-- `CUR_OP` (R39): the latched command word while busy. -/
  curOp : Option Word
  /-- `LR_STATE` (R39). -/
  lrState : LrState
  /-- `LR_LEN` (R39). -/
  lrLen : Half
  /-- `CR_TIME` (R39). -/
  crTime : Word
  /-- LBUF and OBUF (20_memory.md R51, R58). -/
  mem : Memory
  /-- The receive port (R40): the bytes not yet popped, the presented one first. -/
  rx : List Byte
  /-- The clock input NOW_IN (R41). -/
  now : Word
  /-- The clock's advance since the last NOW sample, `none` before the first (R41, U10, log 13). -/
  sinceSample : Option Nat
  /-- A CMD write has been accepted and no STATUS read has returned `BUSY = 0` since: reads of result state are
  unspecified until one does (20_memory.md R59, log 23). -/
  unsettled : Bool
  /-- The number of the next draw of free values (log 9); while the block is idle, the draw that reads of unsettled
  results see (log 25). -/
  free : Nat
  /-- The draw that unwritten buffer bytes read from (U3, log 8). -/
  ramDraw : Nat
  /-- The host (00_scope.md R16). -/
  host : HostAgent
  /-- The moves still to come, the next one first (log 1). -/
  env : List Event
  deriving DecidableEq, Repr

/-- Why the run stops with a fault. -/
inductive Fault where
  /-- A host access that breaks 20_memory.md R53; raised by a host step. "a model treats such an access
  as a host fault" (R204, U4). SAFE: the run stops where the hardware may go on. -/
  | hostAccess (a : Access)
  deriving DecidableEq, Repr

/-- Why the model refuses to go on. -/
inductive Refusal where
  /-- A command whose meaning is not modelled: none is left. SAFE. -/
  | notModelled (mnemonic : String)
  /-- The clock would advance by 2^31 or more between two samples; raised by a clock step. "refuse: the
  run is outside the model" (U10, 10_state.md R41). SAFE. -/
  | clockJump
  /-- A procedure or program is called while another one runs; raised by a call. Exclusion is the host's
  duty (45_host_procedures.md R189). SAFE. -/
  | procedureRunning
  /-- sendData is called with a payload longer than LBUF, against the bound of R186; raised by a call.
  SAFE. -/
  | payloadTooLong
  deriving DecidableEq, Repr

/-- The state right after reset (R220), for a block with the given parameters. The clock input, the port,
the host and the schedule are the environment's (logs 1, 14, 15, 17). -/
def State.resetWith (p : Params) : State where
  params := p
  res := .none
  err := .none
  ovr := false
  trunc := false
  size := 0
  t0 := 0
  tmo := 0
  len := 0
  aOff := 0
  aCnt := 0
  crc := 0
  cksumVal := 0
  cksumOvf := false
  commaIdx := 0
  commaF := false
  term := 0x0A
  olen := 0
  curOp := Option.none
  lrState := .idle
  lrLen := 0
  crTime := 0
  mem := []
  rx := []
  now := 0
  sinceSample := Option.none
  unsettled := false
  free := 1
  ramDraw := 0
  host := HostAgent.quiet
  env := []

/-- The state right after reset, with the spec's default parameters (R5, R7, R8, R9). -/
def State.reset : State := State.resetWith Params.default

end Sys2Proof.Machine
end

