-- ==== Sys2Proof/Machine/Ops.lean ====
section
/-! DEFINITION. The named operations over memory, buffers, ports and registers that the commands share:
reading and writing bytes, `finish` and `raise`, accepting a command, sampling the clock, the receive
port, and `expired`. -/

namespace Sys2Proof.Machine

/-! ### Memory: strictly rising addresses, an unlisted address holds no written byte (log 8) -/

/-- The byte last written at `a`, if any. -/
def Memory.get? : Memory → Nat → Option Byte
  | [], _ => none
  | (b, w) :: m, a => if a = b then some w else Memory.get? m a

/-- Write one byte. -/
def Memory.set : Memory → Nat → Byte → Memory
  | [], a, v => [(a, v)]
  | (b, w) :: m, a, v =>
    if a < b then (a, v) :: (b, w) :: m
    else if a = b then (a, v) :: m
    else (b, w) :: Memory.set m a v

/-- Write consecutive bytes from `a` on. -/
def Memory.setAll : Memory → Nat → List Byte → Memory
  | m, _, [] => m
  | m, a, v :: vs => Memory.setAll (Memory.set m a v) (a + 1) vs

/-- The canonical form: addresses strictly rising. No entry can equal what an unlisted address reads as,
since an unlisted address holds no value of its own (log 8). -/
def Memory.wf : Memory → Bool
  | [] => true
  | [_] => true
  | (a, _) :: (b, w) :: m => decide (a < b) && Memory.wf ((b, w) :: m)

/-! ### The buffers (20_memory.md R51, R55) -/

/-- The local address of `LBUF[0]` (R51). -/
def lbufBase : Nat := 0x1000

/-- The local address of `OBUF[0]` (R51). -/
def obufBase : Nat := 0x2000

/-- The byte a buffer holds at local address `a`: the one last written, or the free value that the last
reset drew for it (R58, R220, U3). -/
def State.cell (s : State) (a : Nat) : Byte := (s.mem.get? a).getD (Config.freeByte s.ramDraw a)

/-- `LBUF[i]` (R12). -/
def State.lbuf (s : State) (i : Nat) : Byte := s.cell (lbufBase + i)

/-- `OBUF[i]` (R12). -/
def State.obuf (s : State) (i : Nat) : Byte := s.cell (obufBase + i)

/-- `LBUF[i] <- b` (R12). -/
def State.setLbuf (s : State) (i : Nat) (b : Byte) : State :=
  { s with mem := s.mem.set (lbufBase + i) b }

/-- `LBUF[i], LBUF[i+1], ... <- bs`. -/
def State.setLbufs (s : State) (i : Nat) (bs : List Byte) : State :=
  { s with mem := s.mem.setAll (lbufBase + i) bs }

/-- `OBUF[i], OBUF[i+1], ... <- bs`. -/
def State.setObufs (s : State) (i : Nat) (bs : List Byte) : State :=
  { s with mem := s.mem.setAll (obufBase + i) bs }

/-- The byte string `LBUF[a..a+n)` (R12). -/
def State.lbufSpan (s : State) (a n : Nat) : List Byte := (List.range n).map fun i => s.lbuf (a + i)

/-- The byte string `OBUF[0..n)`. -/
def State.obufSpan (s : State) (n : Nat) : List Byte := (List.range n).map fun i => s.obuf i

/-! ### Characters (00_scope.md R14) -/

def chCR : Byte := 0x0D
def chLF : Byte := 0x0A
def chComma : Byte := 0x2C
def chNUL : Byte := 0x00

/-! ### Time (00_scope.md R7, R13) -/

/-- `expired(elapsed, limit)` (R7). -/
def expired (cmp : DeadlineCmp) (elapsed limit : Word) : Bool :=
  match cmp with
  | .gt => decide (limit.toNat < elapsed.toNat)
  | .ge => decide (limit.toNat ≤ elapsed.toNat)

/-- `sample_now()`: the sample itself is `s.now`; the bound of R41 counts from here (log 13). -/
def State.sampled (s : State) : State := { s with sinceSample := some 0 }

/-! ### The receive port (R13, R40) -/

/-- `rx_head()`. -/
def State.rxHead (s : State) : Option Byte := s.rx.head?

/-- `rx_pop()`. -/
def State.rxPop (s : State) : State := { s with rx := s.rx.tail }

/-! ### Ending and starting a command -/

/-- `STATUS.BUSY` (10_state.md R23, R39). -/
def State.busy (s : State) : Bool := s.curOp.isSome

/-- `finish(res)` (R13, R23): the result code, and BUSY cleared. -/
def State.finish (s : State) (r : Res) : State := { s with res := r, curOp := none }

/-- `raise E` (60_exceptions.md R200): the error code, no result, the line assembler idle, BUSY cleared,
and nothing else. It is the block's only exception: it saves nothing and goes to no vector (R206), and
there is no return from it (R207): the next accepted command clears it. -/
def State.raise (s : State) (e : Err) : State :=
  { s with err := e, res := .none, lrState := .idle, curOp := none }

/-- The command word latched (R37): BUSY set, RES, ERR, OVR and TRUNC cleared; result state unsettled from here
until the host sees `BUSY = 0` (20_memory.md R59, log 23), and a new draw for its reads (log 25). -/
def State.latch (s : State) (w : Word) : State :=
  { s with
    res := .none, err := .none, ovr := false, trunc := false, curOp := some w, unsettled := true,
    free := s.free + 1 }

/-- An accepted CMD write (R37): the word is latched, and "an undecodable word raises ILLEGAL at once"
(30_encoding.md R70, log 5). -/
def State.accept (s : State) (w : Word) : State :=
  match decodeWord w with
  | .ok _ => s.latch w
  | .error _ => (s.latch w).raise .illegal

/-- The word the block controller runs next: the latched command word (R39, R62). -/
def State.fetch (s : State) : Option Word := s.curOp

/-! ### Reset (70_reset_and_hazards.md R220, R221) -/

/-- RST: every register and internal state element takes its reset value, LBUF and OBUF become
unspecified (a new draw), and the port, the clock, the parameters and the world outside stay (log 16). -/
def State.rst (s : State) : State :=
  { State.resetWith s.params with
    rx := s.rx
    now := s.now
    sinceSample := s.sinceSample
    free := s.free + 1
    ramDraw := s.free
    host := s.host
    env := s.env }

end Sys2Proof.Machine
end

