-- ==== Sys2Proof/Machine/Operands.lean ====
section
/-! DEFINITION. The operands of the commands (30_encoding.md R72) and the range checks on them
(60_exceptions.md R201). A command reads its operands from the state its block step starts in, which
holds them as they stood at its acceptance (10_state.md R42). -/

namespace Sys2Proof.Machine

/-- CRCX and CRCC: `LBUF[A_OFF..A_OFF+A_CNT)` (R72). -/
def State.crcSpan (s : State) : List Byte := s.lbufSpan s.aOff.toNat s.aCnt.toNat

/-- DECODE, VERIFY and ENCODE: `LBUF[0..LEN)` (R72). -/
def State.line (s : State) : List Byte := s.lbufSpan 0 s.len.toNat

/-- CRCX and CRCC raise RANGE when `A_OFF + A_CNT > LBUF_SIZE`, the sum without wrap (R29, R201). -/
def State.crcOutOfRange (s : State) : Bool :=
  decide (s.params.lbufSize < s.aOff.toNat + s.aCnt.toNat)

/-- READLINE raises RANGE when `SIZE < 1` or `SIZE > LBUF_SIZE` (R24, R201). -/
def State.sizeOutOfRange (s : State) : Bool :=
  decide (s.size.toNat < 1) || decide (s.params.lbufSize < s.size.toNat)

/-- DECODE, VERIFY and ENCODE raise RANGE when `LEN > LBUF_SIZE` (R27, R201). -/
def State.lenOutOfRange (s : State) : Bool := decide (s.params.lbufSize < s.len.toNat)

/-- The outer deadline is reached at the present NOW sample (41_line_reader.md R121). -/
def State.deadlineReached (s : State) : Bool :=
  expired s.params.deadlineCmp (s.now - s.t0) s.tmo

/-- The grace window of the consumed CR is over at the present NOW sample (R124). -/
def State.graceOver (s : State) : Bool :=
  expired s.params.deadlineCmp (s.now - s.crTime) Config.graceMs

end Sys2Proof.Machine
end

