-- ==== Sys2Proof/Machine/Crc.lean ====
section
/-! DEFINITION. The CRC unit (40_crc.md): the CRC function and the commands CRCX and CRCC. -/

namespace Sys2Proof.Machine

/-- One turn of the loop of R103: a 16-bit shift that loses bit 15, and the polynomial 0x1021 if it was 1. -/
def crcBit (c : Half) : Half := if c.getLsbD 15 then (c <<< 1) ^^^ 0x1021 else c <<< 1

/-- `n` turns of the loop of R103. -/
def crcBits : Nat → Half → Half
  | 0, c => c
  | n + 1, c => crcBits n (crcBit c)

/-- `crc_step(c, b)` (R103). -/
def crcStep (c : Half) (b : Byte) : Half := crcBits 8 (c ^^^ (b.setWidth 16 <<< 8))

/-- `crc16(seed, s)` (R104): the bytes in order, the first one first. -/
def crc16 : Half → List Byte → Half
  | c, [] => c
  | c, b :: s => crc16 (crcStep c b) s

/-- `SEED_XMODEM` (R100). -/
def seedXmodem : Half := 0x0000

/-- `SEED_CCITT` (R100). -/
def seedCcitt : Half := 0xFFFF

/-- `crc16_xmodem(s)` (R104). -/
def crc16Xmodem (s : List Byte) : Half := crc16 seedXmodem s

/-- `crc16_ccitt(s)` (R104). -/
def crc16Ccitt (s : List Byte) : Half := crc16 seedCcitt s

/-- The common body of CRCX and CRCC: the range check, the CRC of the span from `seed`, DONE. -/
def State.crcCommand (s : State) (seed : Half) : State :=
  if s.crcOutOfRange then s.raise .range
  else { s with crc := crc16 seed s.crcSpan }.finish .done

/-- CRCX (R101). -/
def execCrcx (s : State) : Host.Outcome State Fault Refusal := .next (s.crcCommand seedXmodem)

/-- CRCC (R102). -/
def execCrcc (s : State) : Host.Outcome State Fault Refusal := .next (s.crcCommand seedCcitt)

end Sys2Proof.Machine
end

