-- ==== Sys2Proof/Machine/FrameCodec.lean ====
section
/-! DEFINITION. The frame codec (42_frame_codec.md): the checksum suffix, decimal rendering, and the commands
DECODE, VERIFY and ENCODE. -/

namespace Sys2Proof.Machine

/-- What `decode` answers (R154). -/
inductive Suffix where
  | found (idx value : Nat)
  | notFound (comma : Bool) (idx : Nat)
  deriving DecidableEq, Repr

/-- The offset of the last comma of a line (R150). -/
def lastComma : List Byte → Option Nat
  | [] => none
  | b :: l =>
    match lastComma l with
    | some k => some (k + 1)
    | none => if b = chComma then some 0 else none

/-- An ASCII digit `'0'..'9'` (R151). -/
def isDigit (b : Byte) : Bool := decide (0x30 ≤ b.toNat) && decide (b.toNat ≤ 0x39)

/-- The longest run of digits at the start of `l` (R151). -/
def digitRun : List Byte → List Byte
  | [] => []
  | b :: l => if isDigit b then b :: digitRun l else []

/-- The value of an ASCII digit (R154). -/
def digitValue (b : Byte) : Nat := b.toNat - 0x30

/-- The number that digits spell after a number `v`, most significant first (R151, R154). -/
def numeral (v : Nat) (digits : List Byte) : Nat := digits.foldl (fun v b => 10 * v + digitValue b) v

/-- `decode(L, n)` (R154). -/
def decodeSuffix (trailing : CksumTrailing) (l : List Byte) : Suffix :=
  match lastComma l with
  | none => .notFound false 0
  | some k =>
    let rest := l.drop (k + 1)
    let digits := digitRun rest
    if digits.length = 0 then .notFound true k
    else if trailing = .reject ∧ digits.length < rest.length then .notFound true k
    else .found k (numeral 0 digits)

/-- `write_decode_result(r)` (R154). -/
def State.writeSuffix (s : State) : Suffix → State
  | .found k v =>
    { s with
      commaF := true
      commaIdx := BitVec.ofNat 16 k
      cksumOvf := decide (65535 < v)
      cksumVal := BitVec.ofNat 16 v }
  | .notFound f k =>
    { s with
      commaF := f
      commaIdx := BitVec.ofNat 16 k
      cksumOvf := false
      cksumVal := 0 }

/-- The ASCII digit of a number below 10. -/
def digitChar (d : Nat) : Byte := BitVec.ofNat 8 (0x30 + d)

/-- At most `n` decimal digits of `v`, no leading zeros. -/
def decDigits : Nat → Nat → List Byte
  | 0, _ => []
  | n + 1, v => if v < 10 then [digitChar v] else decDigits n (v / 10) ++ [digitChar (v % 10)]

/-- `dec(v)` for a 16-bit value (R156). -/
def dec (v : Half) : List Byte := decDigits 5 v.toNat

/-- The frame of a payload (R170). -/
def frame (payload : List Byte) (term : Byte) : List Byte :=
  payload ++ [chComma] ++ dec (crc16Xmodem payload) ++ [term]

/-- The suffix of the line in LBUF. -/
def State.suffix (s : State) : Suffix := decodeSuffix s.params.cksumTrailing s.line

/-- DECODE (R160). -/
def execDecode (s : State) : Host.Outcome State Fault Refusal :=
  if s.lenOutOfRange then .next (s.raise .range)
  else match s.suffix with
    | .found k v => .next ((s.writeSuffix (.found k v)).finish .found)
    | .notFound f k => .next ((s.writeSuffix (.notFound f k)).finish .notFound)

/-- Strip the suffix in place (R165): NUL over the comma, LEN the payload's length, VALID. -/
def State.strip (s : State) (k : Nat) : State :=
  { s.setLbuf k chNUL with len := BitVec.ofNat 16 k }.finish .valid

/-- VERIFY (R165). -/
def execVerify (s : State) : Host.Outcome State Fault Refusal :=
  if s.lenOutOfRange then .next (s.raise .range)
  else match s.suffix with
    | .notFound f k => .next ((s.writeSuffix (.notFound f k)).finish .notFound)
    | .found k v =>
      let c := crc16Xmodem (s.lbufSpan 0 k)
      let s' := { s.writeSuffix (.found k v) with crc := c }
      if v = c.toNat then .next (s'.strip k) else .next (s'.finish .mismatch)

/-- ENCODE (R170). -/
def execEncode (s : State) : Host.Outcome State Fault Refusal :=
  if s.lenOutOfRange then .next (s.raise .range)
  else
    let out := frame s.line s.term
    .next ({ s.setObufs 0 out with
      olen := BitVec.ofNat 16 out.length
      crc := crc16Xmodem s.line }.finish .done)

end Sys2Proof.Machine
end

