-- ==== Sys2Proof/Machine/LineReader.lean ====
section
/-! DEFINITION. The line assembler (41_line_reader.md): the command READLINE, one poll iteration a block
step (70_reset_and_hazards.md R232). -/

namespace Sys2Proof.Machine

/-- `done()` (R129): the NUL after the line, its length in LEN, the assembler idle, LINE. -/
def State.lineDone (s : State) : State :=
  { s.setLbuf s.lrLen.toNat chNUL with len := s.lrLen, lrState := .idle }.finish .line

/-- `timed_out()` (R130): LEN and `LBUF[0..SIZE)` unspecified (free values, U1), the assembler idle, TIMEOUT. -/
def State.timedOut (s : State) : State :=
  { s.setLbufs 0 ((List.range s.size.toNat).map fun i => Config.freeByte s.free (lbufBase + i)) with
    len := Config.freeLen s.free
    free := s.free + 1
    lrState := .idle }.finish .timeout

/-- `cr_exit()` (R128). -/
def State.crExit (s : State) : State :=
  if 0 < s.lrLen.toNat || s.params.crBlank == .surface then s.lineDone
  else { s with lrState := .accumulating }

/-- The CR exit condition (R124): in CR_PENDING, a byte that is not LF is presented, or the grace window
is over. -/
def State.crExits (s : State) : Bool :=
  s.lrState == .crPending &&
    ((s.rxHead != none && s.rxHead != some chLF) || s.graceOver)

/-- What becomes of a consumed byte (R126, R127, R128). -/
def State.consume (s : State) (c : Byte) : State :=
  if c = chCR then { s with lrState := .crPending, crTime := s.now }
  else if c = chLF then
    if 0 < s.lrLen.toNat then s.lineDone else { s with lrState := .accumulating }
  else if s.lrLen.toNat < s.size.toNat - 1 then
    { s.setLbuf s.lrLen.toNat c with lrLen := s.lrLen + 1 }
  else { s with trunc := true }

/-- The checks of `poll_iteration()` after the NOW sample, in the order of R122. -/
def State.pollChecks (s : State) : State :=
  if s.deadlineReached then s.timedOut
  else if s.crExits then s.crExit
  else match s.rxHead with
    | none => s
    | some c => s.rxPop.consume c

/-- One poll iteration (R122). -/
def State.poll (s : State) : State := s.sampled.pollChecks

/-- READLINE (R120). A command that has not started yet (LR_STATE is IDLE) is checked and started, and its
first iteration runs in the same block step; a started one runs its next iteration (log 6). -/
def execReadline (s : State) : Host.Outcome State Fault Refusal :=
  if s.lrState = .idle then
    if s.sizeOutOfRange then .next (s.raise .range)
    else .next { s with lrState := .accumulating, lrLen := 0 }.poll
  else .next s.poll

end Sys2Proof.Machine
end

