-- ==== Sys2Proof/Machine/Dispatch.lean ====
section
/-! DEFINITION. One arm per command: the block step of a running command (70_reset_and_hazards.md R232). -/

namespace Sys2Proof.Machine

def exec (i : Instr) (s : State) : Host.Outcome State Fault Refusal :=
  match i with
  | .crcx => Sys2Proof.Machine.execCrcx s
  | .crcc => Sys2Proof.Machine.execCrcc s
  | .readline => Sys2Proof.Machine.execReadline s
  | .decode => Sys2Proof.Machine.execDecode s
  | .verify => Sys2Proof.Machine.execVerify s
  | .encode => Sys2Proof.Machine.execEncode s

end Sys2Proof.Machine
end

