-- ==== Sys2Proof/Machine/Flags.lean ====
section
/-! DEFINITION. The codes and the packed words of the status and result registers (10_state.md R23, R31,
R32). -/

namespace Sys2Proof.Machine

/-- The code of a result in `STATUS.RES` (R23). -/
def Res.code : Res → BitVec 4
  | .none => 0
  | .done => 1
  | .line => 2
  | .timeout => 3
  | .found => 4
  | .notFound => 5
  | .valid => 6
  | .mismatch => 7

/-- The code of an error in `STATUS.ERR` (R23, 60_exceptions.md R200). -/
def Err.code : Err → BitVec 4
  | .none => 0
  | .illegal => 1
  | .range => 2

/-- The code of the line assembler's state in `STATUS.LRSTATE` (R23). -/
def LrState.code : LrState → BitVec 2
  | .idle => 0
  | .accumulating => 1
  | .crPending => 2

/-- `STATUS.RXAV` (R23): live, 1 iff the port presents a byte. -/
def State.rxAv (s : State) : Bool := s.rxHead.isSome

/-- One bit of a register. -/
def bit (b : Bool) : BitVec 1 := BitVec.ofBool b

/-- The STATUS word (R23): `{RXAV[20], LRSTATE[17:16], TRUNC[13], OVR[12], ERR[11:8], RES[7:4], BUSY[0]}`,
all other bits 0. -/
def State.statusWord (s : State) : Word :=
  0#11 ++ bit s.rxAv ++ 0#2 ++ s.lrState.code ++ 0#2 ++ bit s.trunc ++ bit s.ovr ++ s.err.code
    ++ s.res.code ++ 0#3 ++ bit s.busy

/-- The CKSUM word (R31): `{OVF[16], VAL[15:0]}`. -/
def State.cksumWord (s : State) : Word := 0#15 ++ bit s.cksumOvf ++ s.cksumVal

/-- The COMMA word (R32): `{F[16], IDX[15:0]}`. -/
def State.commaWord (s : State) : Word := 0#15 ++ bit s.commaF ++ s.commaIdx

/-- Field BUSY of a STATUS word. -/
def statusBusy (w : Word) : Bool := w.getLsbD 0

/-- Field RES of a STATUS word. -/
def statusRes (w : Word) : BitVec 4 := w.extractLsb' 4 4

/-- Field RXAV of a STATUS word. -/
def statusRxAv (w : Word) : Bool := w.getLsbD 20

end Sys2Proof.Machine
end

