-- ==== Sys2Proof/Machine/Bus.lean ====
section
/-! DEFINITION. The host's bus (10_state.md R22 to R38, R42, R43; 20_memory.md R50 to R54; 60_exceptions.md R204). -/

namespace Sys2Proof.Machine

/-- The registers of R22. -/
inductive Reg where
  | cmd
  | status
  | size
  | t0
  | tmo
  | len
  | aOff
  | aCnt
  | crc
  | cksum
  | comma
  | term
  | olen
  | now
  | cfg
  deriving DecidableEq, Repr

/-- The byte offset of a register (R22). -/
def Reg.offset : Reg → BitVec 14
  | .cmd => 0x000
  | .status => 0x004
  | .size => 0x008
  | .t0 => 0x00C
  | .tmo => 0x010
  | .len => 0x014
  | .aOff => 0x018
  | .aCnt => 0x01C
  | .crc => 0x020
  | .cksum => 0x024
  | .comma => 0x028
  | .term => 0x02C
  | .olen => 0x030
  | .now => 0x034
  | .cfg => 0x038

/-- The register at a word offset, none for a reserved one (R22, R38). -/
def Reg.ofOffset (a : Nat) : Option Reg :=
  match a with
  | 0x000 => some .cmd
  | 0x004 => some .status
  | 0x008 => some .size
  | 0x00C => some .t0
  | 0x010 => some .tmo
  | 0x014 => some .len
  | 0x018 => some .aOff
  | 0x01C => some .aCnt
  | 0x020 => some .crc
  | 0x024 => some .cksum
  | 0x028 => some .comma
  | 0x02C => some .term
  | 0x030 => some .olen
  | 0x034 => some .now
  | 0x038 => some .cfg
  | _ => none

/-- The parts of the local address map (R51). -/
inductive Region where
  | regs
  | lbuf
  | obuf
  | reserved
  deriving DecidableEq, Repr

/-- The part an address lies in (R51). -/
def regionOf (a : Nat) : Region :=
  if a < 0x1000 then .regs
  else if a < 0x2000 then .lbuf
  else if a < 0x3000 then .obuf
  else .reserved

/-- The bytes an access moves (R50). -/
def widthBytes : Width → Nat
  | .w1 => 1
  | .w2 => 2
  | .w4 => 4

/-- The alignment rule (R53): a register access is 4 bytes wide at a multiple of 4, a window access of `n`
bytes is at a multiple of `n`. The spec states no rule for the reserved range (log 12). -/
def aligned (a : Nat) (w : Width) : Bool :=
  match regionOf a with
  | .regs => decide (w = .w4) && decide (a % 4 = 0)
  | .lbuf => decide (a % widthBytes w = 0)
  | .obuf => decide (a % widthBytes w = 0)
  | .reserved => true

/-! ### Registers -/

/-- What a read of a register returns when it is specified (R22 to R37): bits that no field names read 0. -/
def State.regValue (s : State) : Reg → Word
  | .cmd => 0
  | .status => s.statusWord
  | .size => s.size.setWidth 32
  | .t0 => s.t0
  | .tmo => s.tmo
  | .len => s.len.setWidth 32
  | .aOff => s.aOff.setWidth 32
  | .aCnt => s.aCnt.setWidth 32
  | .crc => s.crc.setWidth 32
  | .cksum => s.cksumWord
  | .comma => s.commaWord
  | .term => s.term.setWidth 32
  | .olen => s.olen.setWidth 32
  | .now => s.now
  | .cfg => BitVec.ofNat 32 s.params.lbufSize

/-- The result registers, whose reads are unspecified while busy (R43) and until the host has seen `BUSY = 0`
(20_memory.md R59). -/
def Reg.isResult : Reg → Bool
  | .len => true
  | .crc => true
  | .cksum => true
  | .comma => true
  | .olen => true
  | _ => false

/-- An operand register written while idle: bits beyond the register's field are ignored (R22, R24 to R33). -/
def State.setOperand (s : State) (r : Reg) (v : Word) : State :=
  match r with
  | .size => { s with size := v.setWidth 16 }
  | .t0 => { s with t0 := v }
  | .tmo => { s with tmo := v }
  | .len => { s with len := v.setWidth 16 }
  | .aOff => { s with aOff := v.setWidth 16 }
  | .aCnt => { s with aCnt := v.setWidth 16 }
  | .term => { s with term := v.setWidth 8 }
  | _ => s

/-- A write of a register: CMD starts a command or is dropped (R37), operand registers are frozen while
busy (R42), and read-only registers ignore writes (R22). -/
def State.writeReg (s : State) (r : Reg) (v : Word) : State :=
  match r with
  | .cmd => if s.busy then { s with ovr := true } else s.accept v
  | r => if s.busy then s else s.setOperand r v

/-! ### Windows -/

/-- The byte at a local address of a window; a byte past its buffer reads 0 (R51). -/
def State.windowByte (s : State) (a : Nat) : Byte :=
  if lbufBase ≤ a ∧ a < lbufBase + s.params.lbufSize then s.cell a
  else if obufBase ≤ a ∧ a < obufBase + s.params.obufSize then s.cell a
  else 0

/-- The number whose bytes, least significant first, are the list (R52). -/
def leNat : List Byte → Nat
  | [] => 0
  | b :: l => b.toNat + 256 * leNat l

/-- `MemRead(a, n)` (R52). -/
def State.memRead (s : State) (a n : Nat) : Word :=
  BitVec.ofNat 32 (leNat ((List.range n).map fun k => s.windowByte (a + k)))

/-- One byte of a host write to the LBUF window; a byte past LBUF ignores it (R51). -/
def State.writeLane (s : State) (a : Nat) (b : Byte) : State :=
  if lbufBase ≤ a ∧ a < lbufBase + s.params.lbufSize then s.setLbuf (a - lbufBase) b else s

/-- `MemWrite(a, n, v)` on the LBUF window: byte `k` of the value goes to `a + k` (R52). -/
def State.memWrite (s : State) (a : Nat) (v : Word) : Nat → State
  | 0 => s
  | n + 1 => (s.memWrite a v n).writeLane (a + n) (v.extractLsb' (8 * n) 8)

/-! ### Accesses -/

/-- The host has read `v`. -/
def State.returned (s : State) (v : Word) : State := { s with host := { s.host with rdata := v } }

/-- Reads of result state are unspecified: while busy (R43), and after an accepted CMD write until a STATUS read
returns `BUSY = 0` (20_memory.md R59, log 23). -/
def State.unstable (s : State) : Bool := s.busy || s.unsettled

/-- The host has read STATUS. One that returned `BUSY = 0` settles the result state (20_memory.md R59). -/
def State.statusRead (s : State) : State :=
  { s.returned s.statusWord with unsettled := s.busy && s.unsettled }

/-- The byte that a read of an unstable window sees at local address `a`: a free value, the same at any width (R52).
DESIGN CHOICE (log 10): so is a byte past its buffer, which R51 says reads 0. -/
def State.anyByte (s : State) (a : Nat) : Byte := Config.freeReadByte s.free a (s.windowByte a)

/-- A read of `n` bytes of an unstable window. -/
def State.anyRead (s : State) (a n : Nat) : Word :=
  BitVec.ofNat 32 (leNat ((List.range n).map fun k => s.anyByte (a + k)))

/-- What a read of an unstable result register returns: a free value. DESIGN CHOICE (log 10): of all 32 bits, those
that R22 says read 0 among them. -/
def State.anyReg (s : State) (r : Reg) : Word := Config.freeRead s.free r.offset.toNat (s.regValue r)

/-- A read whose value is unspecified (R43, R59, U2). While busy each read draws anew; on an idle block reads keep
one draw, so that they are idempotent (R54, log 25). -/
def State.returnedAny (s : State) (v : Word) : State :=
  { s.returned v with free := if s.busy then s.free + 1 else s.free }

/-- A host read of an aligned address: result state reads as any value while it is unstable (R43, R59). DESIGN
CHOICE (log 10): an unstable window does so at every address, those past its buffer among them. -/
def State.busRead (s : State) (a : Nat) (w : Width) : State :=
  match regionOf a with
  | .regs =>
    match Reg.ofOffset a with
    | none => s.returned 0
    | some r =>
      if s.unstable && r.isResult then s.returnedAny (s.anyReg r)
      else if r = .now then s.sampled.returned s.now
      else if r = .status then s.statusRead
      else s.returned (s.regValue r)
  | .lbuf => if s.unstable then s.returnedAny (s.anyRead a (widthBytes w)) else s.returned (s.memRead a (widthBytes w))
  | .obuf => if s.unstable then s.returnedAny (s.anyRead a (widthBytes w)) else s.returned (s.memRead a (widthBytes w))
  | .reserved => s.returned 0

/-- A host write of an aligned address: OBUF and the reserved ranges ignore it (R38, R51), LBUF ignores it
while busy (R42). -/
def State.busWrite (s : State) (a : Nat) (w : Width) (v : Word) : State :=
  match regionOf a with
  | .regs =>
    match Reg.ofOffset a with
    | none => s
    | some r => s.writeReg r v
  | .lbuf => if s.busy then s else s.memWrite a v (widthBytes w)
  | .obuf => s
  | .reserved => s

/-- One host access (R54). An access that breaks R53 is a host fault (R204, U4, log 11). -/
def busAccess (s : State) (x : Access) : Host.Outcome State Fault Refusal :=
  match x with
  | .read a w => if aligned a.toNat w then .next (s.busRead a.toNat w) else .fault (.hostAccess x)
  | .write a w v => if aligned a.toNat w then .next (s.busWrite a.toNat w v) else .fault (.hostAccess x)

end Sys2Proof.Machine
end

