-- ==== Sys2Proof/Machine/HostProcs.lean ====
section
/-! DEFINITION. The host: its script lines (30_encoding.md R76, R77) and the Connection's procedures
(45_host_procedures.md R181 to R190), one bus access or one decision a host step. -/

namespace Sys2Proof.Machine

/-! ### Script lines (R76) -/

/-- `wr REG, v`. -/
def opWr (r : Reg) (v : Word) : ScriptOp := .acc (.write r.offset .w4 v)

/-- `rd REG`. -/
def opRd (r : Reg) : ScriptOp := .acc (.read r.offset .w4)

/-- `wrb LBUF[i], b`. -/
def opWrb (i : Nat) (b : Byte) : ScriptOp :=
  .acc (.write (BitVec.ofNat 14 (lbufBase + i)) .w1 (b.setWidth 32))

/-- `rdb LBUF[i]`. -/
def opRdbLbuf (i : Nat) : ScriptOp := .acc (.read (BitVec.ofNat 14 (lbufBase + i)) .w1)

/-- `rdb OBUF[i]`. -/
def opRdbObuf (i : Nat) : ScriptOp := .acc (.read (BitVec.ofNat 14 (obufBase + i)) .w1)

/-- `cmd MNEMONIC`. -/
def opCmd (i : Instr) : ScriptOp := opWr .cmd (encode i)

/-! ### Pseudo-operations (R77) -/

/-- One `wrb LBUF[k], s[k]` for each byte, from `k = i` on. -/
def opWrbs : Nat → List Byte → List ScriptOp
  | _, [] => []
  | i, b :: bs => opWrb i b :: opWrbs (i + 1) bs

/-- `load "s"`. -/
def opLoad (bs : List Byte) : List ScriptOp := opWrbs 0 bs ++ [opWr .len (BitVec.ofNat 32 bs.length)]

/-- `cmd MNEMONIC; wait`. -/
def opRun (i : Instr) : List ScriptOp := [opCmd i, .wait]

/-- `crcx off, cnt`. -/
def opCrcx (off cnt : Word) : List ScriptOp := [opWr .aOff off, opWr .aCnt cnt] ++ opRun .crcx

/-- `crcc off, cnt`. -/
def opCrcc (off cnt : Word) : List ScriptOp := [opWr .aOff off, opWr .aCnt cnt] ++ opRun .crcc

/-- `readline size, t0, tmo`. -/
def opReadline (size t0 tmo : Word) : List ScriptOp :=
  [opWr .size size, opWr .t0 t0, opWr .tmo tmo] ++ opRun .readline

/-- `decode`. -/
def opDecode : List ScriptOp := opRun .decode

/-- `verify`. -/
def opVerify : List ScriptOp := opRun .verify

/-- `encode`. -/
def opEncode : List ScriptOp := opRun .encode

/-! ### The procedures -/

/-- The procedure goes on at `p` once the bus operations `ops` are over. -/
def State.await (s : State) (ops : List ScriptOp) (p : Proc) : State :=
  { s with host := { s.host with script := ops, proc := p } }

/-- The procedure returns `r`. -/
def State.returns (s : State) (r : ProcResult) : State :=
  { s with host := { s.host with proc := .none, result := some r } }

/-- The host copies the byte it has read to its own buffer. -/
def State.keep (s : State) : State :=
  { s with host := { s.host with buf := s.host.buf ++ [s.host.rdata.setWidth 8] } }

/-- receiveData has a VALID payload and its NUL in the host's buffer (R181): the prefix test and the
removal of the prefix (R182, R183). A discarded line leaves its payload and NUL in the host's buffer, also if the
call then fails. DESIGN CHOICE (log 24): the spec says what stands there for returned bytes only. -/
def State.prefixFilter (s : State) (pfx : List Byte) : State :=
  let payload := s.host.buf.dropLast
  if pfx.isPrefixOf payload then
    { s with host := { s.host with buf := s.host.buf.drop pfx.length } }.returns
      (.received (payload.drop pfx.length))
  else s.await [] (.recvLoop pfx)

/-- The host decides what to do with the value its last bus operation returned. sendData collects OBUF in the same
host buffer that receiveData returns a payload in. DESIGN CHOICE (log 24): R186 names no buffer of the host's. -/
def State.procStep (s : State) : State :=
  match s.host.proc with
  | .none => s
  | .recvNow pfx size timeout =>
    s.await [opWr .size (BitVec.ofNat 32 size), opWr .t0 s.host.rdata, opWr .tmo timeout] (.recvLoop pfx)
  | .recvLoop pfx => s.await (opRun .readline ++ [opRd .status]) (.recvLine pfx)
  | .recvLine pfx =>
    if statusRes s.host.rdata = Res.timeout.code then s.returns .failed
    else s.await (opRun .verify ++ [opRd .status]) (.recvFrame pfx)
  | .recvFrame pfx =>
    if statusRes s.host.rdata = Res.valid.code then s.await [opRd .len] (.recvLen pfx)
    else s.await [] (.recvLoop pfx)
  | .recvLen pfx =>
    { s with host := { s.host with buf := [] } }.await [opRdbLbuf 0] (.recvByte pfx 0 s.host.rdata.toNat)
  | .recvByte pfx pos left =>
    match left with
    | 0 => s.keep.prefixFilter pfx
    | n + 1 => s.keep.await [opRdbLbuf (pos + 1)] (.recvByte pfx (pos + 1) n)
  | .availNow timeout => s.await [opRd .status] (.availStatus s.host.rdata timeout)
  | .availStatus t0 timeout =>
    if statusRxAv s.host.rdata then s.returns (.available true)
    else s.await [opRd .now] (.availTime t0 timeout)
  | .availTime t0 timeout =>
    if expired s.params.deadlineCmp (s.host.rdata - t0) timeout then s.returns (.available false)
    else s.await [opRd .status] (.availStatus t0 timeout)
  | .sendDone => s.await [opRd .olen] .sendLen
  | .sendLen =>
    match s.host.rdata.toNat with
    | 0 => { s with host := { s.host with buf := [] } }.returns (.sent [])
    | n + 1 => { s with host := { s.host with buf := [] } }.await [opRdbObuf 0] (.sendByte 0 n)
  | .sendByte pos left =>
    match left with
    | 0 => s.keep.returns (.sent s.keep.host.buf)
    | n + 1 => s.keep.await [opRdbObuf (pos + 1)] (.sendByte (pos + 1) n)

/-- The script line `wait` (R76): read STATUS, and again until BUSY = 0. -/
def State.waited (s : State) (rest : List ScriptOp) : State :=
  let t := s.busRead Reg.status.offset.toNat .w4
  if statusBusy t.host.rdata then t else { t with host := { t.host with script := rest } }

/-- One step of the host. -/
def hostStep (s : State) : Host.Outcome State Fault Refusal :=
  match s.host.script with
  | .acc a :: rest => busAccess { s with host := { s.host with script := rest } } a
  | .wait :: rest => .next (s.waited rest)
  | [] => .next s.procStep

/-- receiveData called with its default timeout (R181, R182, R187). -/
def receiveDataCall (pfx : List Byte) (size : Nat) : Call := .receiveData pfx size Config.defaultTimeoutMs

/-- waitUntilAvailable called with its default timeout (R185, R187). -/
def waitUntilAvailableCall : Call := .waitUntilAvailable Config.defaultTimeoutMs

/-- The host is in the middle of a program or a procedure. -/
def State.hostRunning (s : State) : Bool := decide (s.host.script ≠ []) || decide (s.host.proc ≠ .none)

/-- A call starts: what an earlier procedure returned is no longer shown. -/
def State.called (s : State) : State := { s with host := { s.host with result := none } }

/-- A call of a procedure starts. One procedure runs at a time (R189, log 19). -/
def startCall (s : State) (c : Call) : Host.Outcome State Fault Refusal :=
  if s.hostRunning then .refused .procedureRunning
  else match c with
    | .receiveData pfx size timeout =>
      if size < 1 ∨ s.params.lbufSize < size then .next (s.returns .failed)
      else .next (s.called.await [opRd .now] (.recvNow pfx size timeout))
    | .waitUntilAvailable timeout => .next (s.called.await [opRd .now] (.availNow timeout))
    | .sendData payload =>
      if s.params.lbufSize < payload.length then .refused .payloadTooLong
      else .next (s.called.await (opLoad payload ++ opEncode) .sendDone)
    | .program ops => .next (s.called.await ops .none)

end Sys2Proof.Machine
end

