-- ==== Sys2Proof/Machine/Events.lean ====
section
/-! DEFINITION. The moves of the agents (00_scope.md R16): the block controller's step, the clock, the
receive source, the reset input and the host. -/

namespace Sys2Proof.Machine

/-- One step of the block controller (70_reset_and_hazards.md R232): the latched command's block step; an
idle block does nothing (10_state.md R21). A latched word outside the opcode map, which no accepted CMD
write leaves, raises ILLEGAL (30_encoding.md R74). -/
def blockStep (s : State) : Host.Outcome State Fault Refusal :=
  match s.fetch with
  | none => .next s
  | some w =>
    match decodeWord w with
    | .ok i => exec i s
    | .error _ => .next (s.raise .illegal)

/-- The clock advances by `d`, less than 2^31 between two samples (10_state.md R41, U10, log 13). -/
def clockTick (s : State) (d : Word) : Host.Outcome State Fault Refusal :=
  match s.sinceSample with
  | none => .next { s with now := s.now + d }
  | some e =>
    if e + d.toNat < 2 ^ 31 then .next { s with now := s.now + d, sinceSample := some (e + d.toNat) }
    else .refused .clockJump

/-- The receive source appends bytes to the stream (R40). -/
def State.arrived (s : State) (bs : List Byte) : State := { s with rx := s.rx ++ bs }

/-- One move (R16). -/
def eventStep (s : State) (e : Event) : Host.Outcome State Fault Refusal :=
  match e with
  | .block => blockStep s
  | .host => hostStep s
  | .call c => startCall s c
  | .arrive bs => .next (s.arrived bs)
  | .tick d => clockTick s d
  | .rst => .next s.rst

end Sys2Proof.Machine
end

