-- ==== Sys2Proof/Machine/Step.lean ====
section
/-! DEFINITION. One step of the machine: the next move of the schedule, or, when the schedule is empty, a
step of the block controller (41_line_reader.md R133's weak fairness, log 2). -/

namespace Sys2Proof.Machine

/-- One step. -/
def step (s : State) : Host.Outcome State Fault Refusal :=
  match s.env with
  | [] => blockStep s
  | e :: rest => eventStep { s with env := rest } e

/-- The word of `nbits` bits latched as an accepted CMD write latches it (10_state.md R37), the line
assembler idle, and the block controller next to move (log 20). -/
def State.withFetchWord (s : State) (nbits w : Nat) : State :=
  { s.latch (BitVec.ofNat 32 (w % 2 ^ nbits)) with lrState := .idle, env := .block :: s.env }

end Sys2Proof.Machine
end

