-- ==== Sys2Proof/Safety.lean ====
section
/-! DEFINITION. What the statements are written in: the invariant of the machine, and the run of one
READLINE command under any clock samples and any arrivals. -/

namespace Sys2Proof.Machine

/-- The local address `a` is that of a byte of LBUF or OBUF (20_memory.md R51). -/
def inBuffers (p : Params) (a : Nat) : Prop :=
  (lbufBase ≤ a ∧ a < lbufBase + p.lbufSize) ∨ (obufBase ≤ a ∧ a < obufBase + p.obufSize)

/-- The invariant that every step keeps. It holds after reset. -/
structure State.Inv (s : State) : Prop where
  /-- LBUF_SIZE has the bounds of 00_scope.md R5. -/
  params : s.params.wf = true
  /-- The memory keeps its canonical form. -/
  memory : s.mem.wf = true
  /-- No byte outside the buffers is ever written (20_memory.md R55). -/
  buffers : ∀ c ∈ s.mem, inBuffers s.params c.1
  /-- The latched word is a legal one (30_encoding.md R70). -/
  legal : ∀ w, s.curOp = some w → ∃ i, decodeWord w = .ok i
  /-- The line assembler is active only during READLINE, with its capacity in range and its running length
  below it (41_line_reader.md R120, R134). -/
  reader : s.lrState ≠ .idle →
    s.curOp = some (encode .readline) ∧ 1 ≤ s.size.toNat ∧ s.size.toNat ≤ s.params.lbufSize ∧
      s.lrLen.toNat < s.size.toNat
  /-- No result and no error stands while busy (10_state.md R23, R37). -/
  pending : s.curOp ≠ none → s.res = .none ∧ s.err = .none
  /-- While busy, the host has not seen the running command end (20_memory.md R59). -/
  unseen : s.curOp ≠ none → s.unsettled = true
  /-- "When `ERR != 0`, `RES = 0`" (R23). -/
  errNoRes : s.err ≠ .none → s.res = .none
  /-- "`IDX[15:0]` is the offset of the last comma when `F = 1` and 0 when `F = 0`" (R32). -/
  comma : s.commaF = false → s.commaIdx = 0
  /-- ENCODE's output fits OBUF (42_frame_codec.md R172). -/
  olen : s.olen.toNat ≤ s.params.obufSize
  /-- The draw that unwritten bytes read from has been drawn (log 9). -/
  draws : s.ramDraw < s.free

/-- What one poll iteration meets: its NOW sample, and the bytes that arrive before it. -/
abbrev Poll := Word × List Byte

/-- The state one iteration starts in. -/
def State.meets (s : State) (x : Poll) : State := { s with now := x.1, rx := s.rx ++ x.2 }

/-- READLINE's block steps, one at each poll, until the command ends or the polls do. -/
def readlineRun : List Poll → State → State
  | [], s => s
  | x :: xs, s =>
    match exec .readline (s.meets x) with
    | .next s' => if s'.lrState = .idle then s' else readlineRun xs s'
    | .fault _ => s
    | .refused _ => s

/-- A byte that READLINE stores as data: neither CR nor LF (R126). -/
def isData (b : Byte) : Bool := b != chCR && b != chLF

/-- READLINE has been accepted and has not made its first step (10_state.md R37, R39). -/
structure State.ReadyToRead (s : State) : Prop where
  idle : s.lrState = .idle
  latched : s.curOp = some (encode .readline)
  noResult : s.res = .none
  noDrop : s.trunc = false
  sizeLow : 1 ≤ s.size.toNat
  sizeHigh : s.size.toNat ≤ s.params.lbufSize

/-- The outer deadline is not reached at any of the polls (R121). -/
def State.inTime (s : State) (xs : List Poll) : Prop :=
  ∀ x ∈ xs, expired s.params.deadlineCmp (x.1 - s.t0) s.tmo = false

/-- The bytes that arrive at the polls. -/
def arrivals (xs : List Poll) : List Byte := (xs.map Prod.snd).flatten

/-- How many bytes the polls take from a port that holds `n` bytes before them, where each poll takes one if
one is presented to it (R125). -/
def takenFrom : Nat → List Poll → Nat
  | _, [] => 0
  | n, x :: xs =>
    if n + x.2.length = 0 then takenFrom 0 xs else takenFrom (n + x.2.length - 1) xs + 1

/-- Byte `m` of the stream, counted from the one at the front of the port, is taken at poll `i`, if no byte
before it ends or suspends the line. -/
abbrev State.takesAt (s : State) (xs : List Poll) (m i : Nat) : Prop :=
  takenFrom s.rx.length (xs.take i) = m ∧ takenFrom s.rx.length (xs.take (i + 1)) = m + 1

/-- A READLINE that has taken the bytes `d` takes a CR at poll `i`, whose NOW sample is then CR_TIME (R127), and
finds the port empty and the grace window open at every poll after it and before `j` (R131). -/
structure State.PausesAfterCr (s : State) (d : List Byte) (xs : List Poll) (i j : Nat) (x : Poll) : Prop where
  takesCr : s.takesAt xs d.length i
  sample : xs[i]? = some x
  later : i < j
  pause : ∀ (k : Nat) (z : Poll), i < k → k < j → xs[k]? = some z →
    s.rx ++ arrivals (xs.take (k + 1)) = d ++ [chCR] ∧ expired s.params.deadlineCmp (z.1 - x.1) 50 = false

/-- `n` steps of the host, up to the first fault. -/
def hostRun : Nat → State → Host.Outcome State Fault Refusal
  | 0, s => .next s
  | n + 1, s =>
    match hostStep s with
    | .next s' => hostRun n s'
    | .fault r => .fault r
    | .refused r => .refused r

/-- The script line writes to the register `r`. -/
def opWritesReg (r : Reg) : ScriptOp → Bool
  | .acc (.write a _ _) => decide (a = r.offset)
  | .acc (.read _ _) => false
  | .wait => false

/-- receiveData has set up SIZE, T0 and TMO and is in its loop (45_host_procedures.md R181). -/
def Proc.inReceiveLoop : Proc → Bool
  | .recvLoop _ => true
  | .recvLine _ => true
  | .recvFrame _ => true
  | .recvLen _ => true
  | .recvByte _ _ _ => true
  | _ => false

/-- The number that ASCII digits spell, the most significant first (20_memory.md R57). -/
def spelled (digits : List Byte) : Nat := Nat.ofDigits 10 ((digits.map fun b => b.toNat - 0x30).reverse)

end Sys2Proof.Machine
end

