-- ==== Sys2Proof/Certificates/Slice0/Obligations.lean ====
section
/-! DEFINITION. The statements for the provers. Rules R<n>, decisions D<n> and items U<n> are those of spec/;
`log <n>` is notes/assumptions/<n>.md. -/

open Sys2Proof Sys2Proof.Machine

/-! ### Command words (30_encoding.md) -/

/-- R73: the decoder reads a command from a word exactly when the word is that command's one legal word. -/
def Obligations.DecodeReadsExactlyTheLegalWords : Prop :=
  ∀ (w : Word) (i : Instr),
    decodeWord w = .ok i ↔
      w = match i with
        | .crcx => 0x00000001#32
        | .crcc => 0x00000101#32
        | .readline => 0x00000002#32
        | .decode => 0x00000003#32
        | .verify => 0x00000004#32
        | .encode => 0x00000005#32

/-- R71, R74: a word is refused exactly when OPC is 0 or 6 to 15, a reserved bit is set, or VAR is 1 with an
OPC other than 1. -/
def Obligations.DecodeRefusesIllegalWords : Prop :=
  ∀ w : Word,
    (∃ r, decodeWord w = .error r) ↔
      (w.toNat % 16 = 0 ∨ 6 ≤ w.toNat % 16 ∨
        (∃ k, ((4 ≤ k ∧ k ≤ 7) ∨ (9 ≤ k ∧ k ≤ 31)) ∧ w.getLsbD k = true) ∨
        (w.getLsbD 8 = true ∧ w.toNat % 16 ≠ 1))

/-- Sanity: the words written out bit by bit from R71 decode to their commands. -/
def Obligations.WrittenOutWordsDecode : Prop :=
  decodeWord 0b00000000000000000000000000000001#32 = .ok .crcx ∧
  decodeWord 0b00000000000000000000000100000001#32 = .ok .crcc ∧
  decodeWord 0b00000000000000000000000000000010#32 = .ok .readline ∧
  decodeWord 0b00000000000000000000000000000011#32 = .ok .decode ∧
  decodeWord 0b00000000000000000000000000000100#32 = .ok .verify ∧
  decodeWord 0b00000000000000000000000000000101#32 = .ok .encode ∧
  decodeWord 0b00000000000000000000000100000010#32 = .error .variant ∧
  decodeWord 0b10000000000000000000000000000001#32 = .error .reservedBit ∧
  decodeWord 0b00000000000000000000000000000110#32 = .error .opcode

/-! ### Steps -/

/-- R21, R232, logs 1 and 2: when the block controller is to move (by the schedule, or because the schedule
is empty), the step is the block step of the command that the latched word decodes to, and an idle block does
nothing. -/
def Obligations.StepRunsTheLatchedCommand : Prop :=
  ∀ s : State,
    (∀ w i, s.curOp = some w → decodeWord w = .ok i →
      (s.env = [] → step s = exec i s) ∧
      (∀ rest, s.env = .block :: rest → step s = exec i { s with env := rest })) ∧
    (s.curOp = none →
      (s.env = [] → step s = .next s) ∧
      (∀ rest, s.env = .block :: rest → step s = .next { s with env := rest }))

/-! ### Accepting a command, and the two command errors -/

/-- R37, R59: an accepted CMD write of a legal word; result state is unsettled from here (log 23), with a draw of its
own (log 25). -/
def Obligations.LegalCommandIsLatched : Prop :=
  ∀ (s : State) (v : Word) (i : Instr),
    s.curOp = none → decodeWord v = .ok i →
      busAccess s (.write 0x000 .w4 v) =
        .next { s with
          res := .none, err := .none, ovr := false, trunc := false, curOp := some v, unsettled := true,
          free := s.free + 1 }

/-- R70, R74, R200: a CMD write of an illegal word raises ILLEGAL at once and changes nothing but STATUS;
result state is unsettled as after any accepted write (R59, logs 23 and 25). -/
def Obligations.IllegalCommandRaisesIllegal : Prop :=
  ∀ (s : State) (v : Word),
    s.curOp = none → (∀ i, decodeWord v ≠ .ok i) →
      busAccess s (.write 0x000 .w4 v) =
        .next { s with
          res := .none, err := .illegal, ovr := false, trunc := false, curOp := none, lrState := .idle,
          unsettled := true, free := s.free + 1 }

/-- R230: a CMD write while busy is dropped and sets OVR. -/
def Obligations.CommandWhileBusyIsDropped : Prop :=
  ∀ (s : State) (v : Word), s.curOp ≠ none →
    busAccess s (.write 0x000 .w4 v) = .next { s with ovr := true }

/-! ### The CRC unit (40_crc.md) -/

/-- R101, R102: CRCX and CRCC, their words, the RANGE error on a span that leaves LBUF (the sum without wrap),
and their completion on every span inside LBUF; every other register, and every byte of memory, is unchanged. -/
def Obligations.CrcCommandsComplete : Prop :=
  decodeWord 0x00000001 = .ok .crcx ∧ decodeWord 0x00000101 = .ok .crcc ∧
  ∀ s : State,
    (s.params.lbufSize < s.aOff.toNat + s.aCnt.toNat →
      exec .crcx s = .next { s with err := .range, res := .none, lrState := .idle, curOp := none } ∧
      exec .crcc s = .next { s with err := .range, res := .none, lrState := .idle, curOp := none }) ∧
    (s.aOff.toNat + s.aCnt.toNat ≤ s.params.lbufSize →
      exec .crcx s = .next { s with
        crc := crc16 0x0000 (s.lbufSpan s.aOff.toNat s.aCnt.toNat), res := .done, curOp := none } ∧
      exec .crcc s = .next { s with
        crc := crc16 0xFFFF (s.lbufSpan s.aOff.toNat s.aCnt.toNat), res := .done, curOp := none })

/-- R105: the byte step is the table-driven one, with `T[i] = crc_step(0x0000, i)`. -/
def Obligations.CrcStepIsTableDriven : Prop :=
  ∀ (c : Half) (b : Byte),
    crcStep c b = (c <<< 8) ^^^ crcStep 0x0000 ((c >>> 8).setWidth 8 ^^^ b)

/-- R106: the laws (a) to (e) of the CRC function. -/
def Obligations.CrcLaws : Prop :=
  (∀ (seed : Half) (a b : List Byte), crc16 seed (a ++ b) = crc16 (crc16 seed a) b) ∧
  (∀ (seed : Half) (s : List Byte), seed = 0x0000 ∨ seed = 0xFFFF →
    crc16 seed (s ++ [(crc16 seed s).extractLsb' 8 8, (crc16 seed s).extractLsb' 0 8]) = 0x0000) ∧
  (∀ a b : List Byte, a.length = b.length →
    crc16Xmodem (List.zipWith (· ^^^ ·) a b) = crc16Xmodem a ^^^ crc16Xmodem b) ∧
  (∀ s : List Byte, crc16Ccitt s = crc16Xmodem s ^^^ crc16Ccitt (List.replicate s.length 0x00)) ∧
  (∀ n : Nat, crc16Xmodem (List.replicate n 0x00) = 0x0000)

/-- R100, R103, R104: the CRC is the remainder, over GF(2), of the message polynomial (first byte and most
significant bit highest, the seed in front) modulo `x^16 + x^12 + x^5 + 1`: it has degree below 16, and the
two differ by a multiple of the generator. -/
def Obligations.CrcIsRemainderByGenerator : Prop :=
  ∀ (P : List Byte → Polynomial (ZMod 2)),
    P [] = 0 →
    (∀ (b : Byte) (s : List Byte),
      P (b :: s) =
        (∑ i ∈ Finset.range 8, if b.getLsbD i then Polynomial.X ^ i else 0) * Polynomial.X ^ (8 * s.length)
          + P s) →
    ∀ (seed : Half) (s : List Byte), ∃ q : Polynomial (ZMod 2),
      (∑ i ∈ Finset.range 16, if seed.getLsbD i then Polynomial.X ^ i else 0) * Polynomial.X ^ (8 * s.length)
          + P s * Polynomial.X ^ 16 =
        q * (Polynomial.X ^ 16 + Polynomial.X ^ 12 + Polynomial.X ^ 5 + 1)
          + ∑ i ∈ Finset.range 16, if (crc16 seed s).getLsbD i then Polynomial.X ^ i else 0

/-! ### The frame codec (42_frame_codec.md) -/

/-- R150: the delimiter is the last comma of the line. -/
def Obligations.LastCommaIsTheDelimiter : Prop :=
  ∀ (l : List Byte) (k : Nat),
    lastComma l = some k ↔ l[k]? = some 0x2C ∧ ∀ j, k < j → l[j]? ≠ some 0x2C

/-- R151, R152, R154: what the decoder answers on a line of every shape: no comma; a last comma with no digit
after it; a last comma, a longest run of digits and what follows them. -/
def Obligations.SuffixDecoding : Prop :=
  ∀ (tr : CksumTrailing) (payload digits rest : List Byte),
    ((0x2C : Byte) ∉ payload → decodeSuffix tr payload = .notFound false 0) ∧
    ((0x2C : Byte) ∉ rest →
      (∀ b ∈ digits, 0x30 ≤ b.toNat ∧ b.toNat ≤ 0x39) →
      (∀ b, rest.head? = some b → ¬ (0x30 ≤ b.toNat ∧ b.toNat ≤ 0x39)) →
      decodeSuffix tr (payload ++ [0x2C] ++ digits ++ rest) =
        if digits = [] ∨ (tr = .reject ∧ rest ≠ []) then .notFound true payload.length
        else .found payload.length (spelled digits))

/-- R153: the 16-bit accumulator with its sticky overflow flag computes the numeral modulo 2^16 and whether it
passes 65535. -/
def Obligations.SixteenBitAccumulatorIsExact : Prop :=
  ∀ digits : List Byte,
    digits.foldl
        (fun (a : Nat × Bool) b =>
          ((10 * a.1 + (b.toNat - 0x30)) % 2 ^ 16, a.2 || decide (65535 < 10 * a.1 + (b.toNat - 0x30))))
        (0, false) =
      (numeral 0 digits % 2 ^ 16, decide (65535 < numeral 0 digits))

/-- R156: `dec(v)` is the shortest digit string that spells `v`, of 1 to 5 bytes, without leading zeros, and the
decoder reads it back. -/
def Obligations.DecimalRenderingIsShortest : Prop :=
  ∀ v : Half,
    (∀ b ∈ dec v, 0x30 ≤ b.toNat ∧ b.toNat ≤ 0x39) ∧
    spelled (dec v) = v.toNat ∧
    1 ≤ (dec v).length ∧ (dec v).length ≤ 5 ∧
    ((dec v).head? = some 0x30 → dec v = [0x30]) ∧
    (∀ d : List Byte, d ≠ [] → (∀ b ∈ d, 0x30 ≤ b.toNat ∧ b.toNat ≤ 0x39) → spelled d = v.toNat →
      (dec v).length ≤ d.length) ∧
    (∀ (tr : CksumTrailing) (p : List Byte), decodeSuffix tr (p ++ [0x2C] ++ dec v) = .found p.length v.toNat)

/-- R160: DECODE, its word, its RANGE error, and its completion on every line inside LBUF; LBUF, LEN, CRC and
everything but COMMA, CKSUM and the end of the command are unchanged. -/
def Obligations.DecodeCompletes : Prop :=
  decodeWord 0x00000003 = .ok .decode ∧ ∀ s : State,
    (s.params.lbufSize < s.len.toNat →
      exec .decode s = .next { s with err := .range, res := .none, lrState := .idle, curOp := none }) ∧
    (s.len.toNat ≤ s.params.lbufSize →
    (∀ k v, decodeSuffix s.params.cksumTrailing (s.lbufSpan 0 s.len.toNat) = .found k v →
      exec .decode s = .next { s with
        commaF := true, commaIdx := BitVec.ofNat 16 k,
        cksumOvf := decide (65535 < v), cksumVal := BitVec.ofNat 16 v,
        res := .found, curOp := none }) ∧
    (∀ f k, decodeSuffix s.params.cksumTrailing (s.lbufSpan 0 s.len.toNat) = .notFound f k →
      exec .decode s = .next { s with
        commaF := f, commaIdx := BitVec.ofNat 16 k, cksumOvf := false, cksumVal := 0,
        res := .notFound, curOp := none }))

/-- R165: VERIFY, its word, its RANGE error, and its completion on every line inside LBUF, as VALID (NUL over
the last comma, LEN the payload's length), MISMATCH or NOT_FOUND (LBUF and LEN unchanged). -/
def Obligations.VerifyCompletes : Prop :=
  decodeWord 0x00000004 = .ok .verify ∧ ∀ s : State,
    (s.params.lbufSize < s.len.toNat →
      exec .verify s = .next { s with err := .range, res := .none, lrState := .idle, curOp := none }) ∧
    (s.len.toNat ≤ s.params.lbufSize →
    (∀ f k, decodeSuffix s.params.cksumTrailing (s.lbufSpan 0 s.len.toNat) = .notFound f k →
      exec .verify s = .next { s with
        commaF := f, commaIdx := BitVec.ofNat 16 k, cksumOvf := false, cksumVal := 0,
        res := .notFound, curOp := none }) ∧
    (∀ k v, decodeSuffix s.params.cksumTrailing (s.lbufSpan 0 s.len.toNat) = .found k v →
      v ≠ (crc16 0x0000 (s.lbufSpan 0 k)).toNat →
      exec .verify s = .next { s with
        commaF := true, commaIdx := BitVec.ofNat 16 k,
        cksumOvf := decide (65535 < v), cksumVal := BitVec.ofNat 16 v,
        crc := crc16 0x0000 (s.lbufSpan 0 k), res := .mismatch, curOp := none }) ∧
    (∀ k v, decodeSuffix s.params.cksumTrailing (s.lbufSpan 0 s.len.toNat) = .found k v →
      v = (crc16 0x0000 (s.lbufSpan 0 k)).toNat →
      exec .verify s = .next { s with
        commaF := true, commaIdx := BitVec.ofNat 16 k,
        cksumOvf := decide (65535 < v), cksumVal := BitVec.ofNat 16 v,
        crc := crc16 0x0000 (s.lbufSpan 0 k),
        mem := s.mem.set (0x1000 + k) 0x00, len := BitVec.ofNat 16 k, res := .valid, curOp := none }))

/-- R170: ENCODE, its word, its RANGE error, and its completion on every payload inside LBUF: OBUF[0..OLEN) is
the payload, a comma, the decimal XMODEM CRC and TERM, of LEN + 3 to LEN + 7 bytes; every other byte of memory
and every other register is unchanged. -/
def Obligations.EncodeCompletes : Prop :=
  decodeWord 0x00000005 = .ok .encode ∧ ∀ s : State,
    (s.params.lbufSize < s.len.toNat →
      exec .encode s = .next { s with err := .range, res := .none, lrState := .idle, curOp := none }) ∧
    (s.params.wf = true → s.len.toNat ≤ s.params.lbufSize →
    ∃ (m : Memory) (out : List Byte),
      out = s.lbufSpan 0 s.len.toNat ++ [0x2C] ++ dec (crc16 0x0000 (s.lbufSpan 0 s.len.toNat)) ++ [s.term] ∧
      exec .encode s = .next { s with
        mem := m, olen := BitVec.ofNat 16 out.length,
        crc := crc16 0x0000 (s.lbufSpan 0 s.len.toNat), res := .done, curOp := none } ∧
      (BitVec.ofNat 16 out.length).toNat = out.length ∧
      s.len.toNat + 3 ≤ out.length ∧ out.length ≤ s.len.toNat + 7 ∧
      ({ s with mem := m } : State).obufSpan out.length = out ∧
      (∀ a, a < 0x2000 ∨ 0x2000 + out.length ≤ a → ({ s with mem := m } : State).cell a = s.cell a))

/-- R175: what ENCODE writes, loaded without its terminator, verifies, and the payload comes back. -/
def Obligations.VerifyOfEncodeGivesThePayload : Prop :=
  ∀ s t u : State,
    s.params.wf = true → s.len.toNat + 7 ≤ s.params.lbufSize →
    exec .encode s = .next t →
    u.params = s.params → u.len.toNat = t.olen.toNat - 1 →
    (∀ i, i < u.len.toNat → u.lbuf i = t.obuf i) →
    ∃ v, exec .verify u = .next v ∧ v.res = .valid ∧ v.len = s.len ∧
      v.lbufSpan 0 s.len.toNat = s.lbufSpan 0 s.len.toNat ∧ v.lbuf s.len.toNat = 0x00

/-- The frame of the commands that store nothing (R58, R101, R102, R160, and R165 where the suffix is not
stripped): every byte of memory and every register but the results they name keeps its value. -/
def Obligations.CommandsThatStoreNothingKeepMemory : Prop :=
  ∀ (i : Instr) (s t : State),
    (i = .crcx ∨ i = .crcc ∨ i = .decode ∨ (i = .verify ∧ t.res ≠ .valid)) →
    exec i s = .next t →
      (∀ a, t.cell a = s.cell a) ∧
      t.size = s.size ∧ t.t0 = s.t0 ∧ t.tmo = s.tmo ∧ t.len = s.len ∧ t.aOff = s.aOff ∧ t.aCnt = s.aCnt ∧
      t.term = s.term ∧ t.olen = s.olen ∧ t.ovr = s.ovr ∧ t.trunc = s.trunc ∧
      t.lrLen = s.lrLen ∧ t.crTime = s.crTime ∧ t.rx = s.rx ∧ t.now = s.now ∧ t.params = s.params ∧
      (i = .decode → t.crc = s.crc) ∧
      (i = .crcx ∨ i = .crcc →
        t.commaF = s.commaF ∧ t.commaIdx = s.commaIdx ∧ t.cksumVal = s.cksumVal ∧ t.cksumOvf = s.cksumOvf)

/-- The frame of the commands that store (R165, R170): VERIFY stores one byte, at LBUF[k] for the last comma's
offset k, and only on VALID; ENCODE stores OBUF[0..OLEN). -/
def Obligations.StoringCommandsChangeOnlyTheirBytes : Prop :=
  ∀ s t : State, s.params.wf = true →
    (exec .verify s = .next t → t.res = .valid →
      ∃ k, lastComma (s.lbufSpan 0 s.len.toNat) = some k ∧ t.len.toNat = k ∧ t.lbuf k = 0x00 ∧
        (∀ a, a ≠ 0x1000 + k → t.cell a = s.cell a) ∧
        t.size = s.size ∧ t.t0 = s.t0 ∧ t.tmo = s.tmo ∧ t.aOff = s.aOff ∧ t.aCnt = s.aCnt ∧
        t.term = s.term ∧ t.olen = s.olen ∧ t.ovr = s.ovr ∧ t.trunc = s.trunc ∧
        t.lrLen = s.lrLen ∧ t.crTime = s.crTime ∧ t.rx = s.rx ∧ t.now = s.now ∧ t.params = s.params) ∧
    (exec .encode s = .next t → t.res = .done →
      (∀ a, a < 0x2000 ∨ 0x2000 + t.olen.toNat ≤ a → t.cell a = s.cell a) ∧
      t.size = s.size ∧ t.t0 = s.t0 ∧ t.tmo = s.tmo ∧ t.len = s.len ∧ t.aOff = s.aOff ∧ t.aCnt = s.aCnt ∧
      t.term = s.term ∧ t.ovr = s.ovr ∧ t.trunc = s.trunc ∧
      t.commaF = s.commaF ∧ t.commaIdx = s.commaIdx ∧ t.cksumVal = s.cksumVal ∧ t.cksumOvf = s.cksumOvf ∧
      t.lrLen = s.lrLen ∧ t.crTime = s.crTime ∧ t.rx = s.rx ∧ t.now = s.now ∧ t.params = s.params)

/-- R107, R173: the commands other than READLINE depend on neither the port nor NOW, and change neither. -/
def Obligations.OnlyReadlineUsesPortAndClock : Prop :=
  ∀ (i : Instr) (s : State) (r : List Byte) (n : Word), i ≠ .readline →
    ∃ t, exec i s = .next t ∧ t.rx = s.rx ∧ t.now = s.now ∧ t.sinceSample = s.sinceSample ∧
      exec i { s with rx := r, now := n } = .next { t with rx := r, now := n }

/-! ### READLINE (41_line_reader.md), one poll iteration at a time -/

/-- R120, R201 (log 6: LR_STATE = IDLE is how the model knows a READLINE that has not started): SIZE out of
range raises RANGE and changes nothing but STATUS; SIZE in range starts the line at length 0, and the first
iteration runs. -/
def Obligations.ReadlineStartChecksSize : Prop :=
  ∀ s : State, s.lrState = .idle →
    (s.size.toNat = 0 ∨ s.params.lbufSize < s.size.toNat →
      exec .readline s = .next { s with err := .range, res := .none, curOp := none }) ∧
    (1 ≤ s.size.toNat → s.size.toNat ≤ s.params.lbufSize →
      exec .readline s = exec .readline { s with lrState := .accumulating, lrLen := 0 })

/-- R121, R123, R130: an iteration whose NOW sample reaches the outer deadline ends READLINE in TIMEOUT, from
either state and whatever the port presents; nothing is consumed; LEN and LBUF[0..SIZE) may hold anything, and
every other byte and register is unchanged. -/
def Obligations.ReadlineTimesOutAtTheDeadline : Prop :=
  ∀ s : State, s.lrState ≠ .idle →
    expired s.params.deadlineCmp (s.now - s.t0) s.tmo = true →
    ∃ (l : Half) (m : Memory),
      exec .readline s = .next { s with
        len := l, mem := m, lrState := .idle, res := .timeout, curOp := none, sinceSample := some 0,
        free := s.free + 1 } ∧
      ∀ a, a < 0x1000 ∨ 0x1000 + s.size.toNat ≤ a → ({ s with mem := m } : State).cell a = s.cell a

/-- R124, R128, R129: the CR exit, its condition and its two outcomes. Nothing is consumed. -/
def Obligations.ReadlineCrExit : Prop :=
  ∀ s : State, s.lrState = .crPending →
    expired s.params.deadlineCmp (s.now - s.t0) s.tmo = false →
    ((∃ b, s.rx.head? = some b ∧ b ≠ 0x0A) ∨ expired s.params.deadlineCmp (s.now - s.crTime) 50 = true) →
    (0 < s.lrLen.toNat ∨ s.params.crBlank = .surface →
      exec .readline s = .next { s with
        mem := s.mem.set (0x1000 + s.lrLen.toNat) 0x00, len := s.lrLen, lrState := .idle, res := .line,
        curOp := none, sinceSample := some 0 }) ∧
    (s.lrLen = 0 → s.params.crBlank = .suppress →
      exec .readline s = .next { s with lrState := .accumulating, sinceSample := some 0 })

/-- R131: an iteration that finds the port empty, with no deadline and no CR exit, changes no state of the
block. -/
def Obligations.ReadlineWaitsAtAnEmptyPort : Prop :=
  ∀ s : State, s.lrState ≠ .idle → s.rx = [] →
    expired s.params.deadlineCmp (s.now - s.t0) s.tmo = false →
    (s.lrState = .crPending → expired s.params.deadlineCmp (s.now - s.crTime) 50 = false) →
    exec .readline s = .next { s with sinceSample := some 0 }

/-- R125, R126, R127, R128, R129, R136: what an iteration that consumes the byte `c` does. A data byte (0x00
among them) is stored at LBUF[LR_LEN] where there is room and dropped, setting TRUNC, where there is none; a CR
starts the grace window; an LF ends a line that is not empty. Exactly one byte is consumed. -/
def Obligations.ReadlineConsumesOneByte : Prop :=
  ∀ (s : State) (c : Byte) (rest : List Byte),
    s.rx = c :: rest →
    expired s.params.deadlineCmp (s.now - s.t0) s.tmo = false →
    (s.lrState = .accumulating ∨
      (s.lrState = .crPending ∧ c = 0x0A ∧ expired s.params.deadlineCmp (s.now - s.crTime) 50 = false)) →
    (c = 0x0D → exec .readline s = .next { s with
      rx := rest, lrState := .crPending, crTime := s.now, sinceSample := some 0 }) ∧
    (c = 0x0A → s.lrLen = 0 → exec .readline s = .next { s with
      rx := rest, lrState := .accumulating, sinceSample := some 0 }) ∧
    (c = 0x0A → 0 < s.lrLen.toNat → exec .readline s = .next { s with
      rx := rest, mem := s.mem.set (0x1000 + s.lrLen.toNat) 0x00, len := s.lrLen, lrState := .idle,
      res := .line, curOp := none, sinceSample := some 0 }) ∧
    (c ≠ 0x0D → c ≠ 0x0A → s.lrLen.toNat < s.size.toNat - 1 → exec .readline s = .next { s with
      rx := rest, mem := s.mem.set (0x1000 + s.lrLen.toNat) c, lrLen := s.lrLen + 1, sinceSample := some 0 }) ∧
    (c ≠ 0x0D → c ≠ 0x0A → ¬ s.lrLen.toNat < s.size.toNat - 1 → exec .readline s = .next { s with
      rx := rest, trunc := true, sinceSample := some 0 })

/-- The frame of READLINE (R55, R125, R134): whatever an iteration does, it writes only LBUF[0..SIZE), changes
no operand register and no other command's result, and consumes at most one byte. -/
def Obligations.ReadlineWritesOnlyItsLine : Prop :=
  ∀ s t : State,
    (s.lrState = .idle ∨ s.lrLen.toNat < s.size.toNat) →
    exec .readline s = .next t →
      (∀ a, a < 0x1000 ∨ 0x1000 + s.size.toNat ≤ a → t.cell a = s.cell a) ∧
      (t.rx = s.rx ∨ ∃ b, s.rx = b :: t.rx) ∧
      t.size = s.size ∧ t.t0 = s.t0 ∧ t.tmo = s.tmo ∧ t.aOff = s.aOff ∧ t.aCnt = s.aCnt ∧ t.crc = s.crc ∧
      t.cksumVal = s.cksumVal ∧ t.cksumOvf = s.cksumOvf ∧ t.commaIdx = s.commaIdx ∧ t.commaF = s.commaF ∧
      t.term = s.term ∧ t.olen = s.olen ∧ t.ovr = s.ovr ∧ t.now = s.now ∧ t.params = s.params

/-! ### READLINE, a whole command under any clock samples and arrivals -/

/-- R134: on LINE, LBUF[0..LEN) is exactly the first SIZE - 1 bytes consumed by this command that are neither
CR nor LF, in order, LBUF[LEN] is 0x00, and TRUNC tells whether any was dropped (R126). -/
def Obligations.LineIsTheConsumedData : Prop :=
  ∀ (s : State) (xs : List Poll), s.ReadyToRead → (readlineRun xs s).res = .line →
    ∃ (n : Nat) (consumed : List Byte),
      n ≤ xs.length ∧
      s.rx ++ arrivals (xs.take n) = consumed ++ (readlineRun xs s).rx ∧
      (readlineRun xs s).lbufSpan 0 (readlineRun xs s).len.toNat =
        (consumed.filter isData).take (s.size.toNat - 1) ∧
      (readlineRun xs s).len.toNat ≤ s.size.toNat - 1 ∧
      (readlineRun xs s).lbuf (readlineRun xs s).len.toNat = 0x00 ∧
      ((readlineRun xs s).trunc = true ↔ s.size.toNat - 1 < (consumed.filter isData).length)

/-- R132 (a): a line that fits, ended by LF, is received as such, whenever its bytes arrive, under any clock
samples before the deadline: `j` is the poll that takes the LF, and `rest` what has arrived behind it by then. -/
def Obligations.LineFeedEndsTheLine : Prop :=
  ∀ (s : State) (d rest : List Byte) (xs : List Poll) (j : Nat),
    s.ReadyToRead → d ≠ [] → (∀ b ∈ d, isData b = true) → d.length < s.size.toNat →
    s.takesAt xs d.length j → s.rx ++ arrivals (xs.take (j + 1)) = d ++ 0x0A :: rest →
    s.inTime (xs.take (j + 1)) →
    (readlineRun xs s).res = .line ∧ (readlineRun xs s).curOp = none ∧
    (readlineRun xs s).len.toNat = d.length ∧ (readlineRun xs s).lbufSpan 0 d.length = d ∧
    (readlineRun xs s).lbuf d.length = 0x00 ∧ (readlineRun xs s).rx = rest

/-- R132 (b), R236: with the LF presented at any poll within the grace window of the CR, after polls at an empty
port or none, CR+LF is one boundary and both are consumed. -/
def Obligations.CrLfEndsTheLineOnce : Prop :=
  ∀ (s : State) (d rest : List Byte) (xs : List Poll) (i j : Nat) (x y : Poll),
    s.ReadyToRead → d ≠ [] → (∀ b ∈ d, isData b = true) → d.length < s.size.toNat →
    s.PausesAfterCr d xs i j x → xs[j]? = some y →
    s.rx ++ arrivals (xs.take (j + 1)) = d ++ 0x0D :: 0x0A :: rest → s.inTime (xs.take (j + 1)) →
    expired s.params.deadlineCmp (y.1 - x.1) 50 = false →
    (readlineRun xs s).res = .line ∧ (readlineRun xs s).curOp = none ∧
    (readlineRun xs s).len.toNat = d.length ∧ (readlineRun xs s).lbufSpan 0 d.length = d ∧
    (readlineRun xs s).lbuf d.length = 0x00 ∧ (readlineRun xs s).rx = rest

/-- R132 (c), R124, R237: a bare CR ends the line at the first poll after it that is presented a byte other than
LF, or at which the grace window is over (be the port empty, or an LF presented too late); whatever is at the
port stays there. -/
def Obligations.BareCrEndsTheLine : Prop :=
  ∀ (s : State) (d rest : List Byte) (xs : List Poll) (i j : Nat) (x y : Poll),
    s.ReadyToRead → d ≠ [] → (∀ b ∈ d, isData b = true) → d.length < s.size.toNat →
    s.PausesAfterCr d xs i j x → xs[j]? = some y →
    s.rx ++ arrivals (xs.take (j + 1)) = d ++ 0x0D :: rest → s.inTime (xs.take (j + 1)) →
    (expired s.params.deadlineCmp (y.1 - x.1) 50 = true ∨ ∃ b, rest.head? = some b ∧ b ≠ 0x0A) →
    (readlineRun xs s).res = .line ∧ (readlineRun xs s).curOp = none ∧
    (readlineRun xs s).len.toNat = d.length ∧ (readlineRun xs s).lbufSpan 0 d.length = d ∧
    (readlineRun xs s).lbuf d.length = 0x00 ∧ (readlineRun xs s).rx = rest

/-- R133: READLINE has ended by the first iteration whose NOW sample reaches the outer deadline, whatever the
port presents. -/
def Obligations.ReadlineEndsByTheDeadline : Prop :=
  ∀ (s : State) (xs : List Poll), s.ReadyToRead →
    (∃ x ∈ xs, expired s.params.deadlineCmp (x.1 - s.t0) s.tmo = true) →
    (readlineRun xs s).curOp = none ∧ (readlineRun xs s).lrState = .idle ∧
    ((readlineRun xs s).res = .line ∨ (readlineRun xs s).res = .timeout)

/-- R176: a frame built for a payload without CR and LF, its bytes arriving at any time before the deadline, with
terminator LF, or with terminator CR and then any byte or the end of the grace window, is received as a line that
VERIFY accepts with that payload. -/
def Obligations.ReceivedFrameVerifies : Prop :=
  ∀ (s : State) (p rest : List Byte) (xs : List Poll) (j : Nat),
    s.ReadyToRead → s.params.wf = true → (∀ c ∈ p, isData c = true) → p.length + 7 ≤ s.params.lbufSize →
    (frame p 0x0A).length ≤ s.size.toNat → s.inTime (xs.take (j + 1)) →
    ((s.takesAt xs (frame p 0x0A).dropLast.length j ∧
        s.rx ++ arrivals (xs.take (j + 1)) = frame p 0x0A ++ rest) ∨
      (s.rx ++ arrivals (xs.take (j + 1)) = frame p 0x0D ++ rest ∧ ∃ (i : Nat) (x y : Poll),
        s.PausesAfterCr (frame p 0x0D).dropLast xs i j x ∧ xs[j]? = some y ∧
        (expired s.params.deadlineCmp (y.1 - x.1) 50 = true ∨ rest ≠ []))) →
    ∃ t, exec .verify (readlineRun xs s) = .next t ∧ (readlineRun xs s).res = .line ∧ t.res = .valid ∧
      t.len.toNat = p.length ∧ t.lbufSpan 0 p.length = p

/-! ### The bus (10_state.md, 20_memory.md) -/

/-- R22 to R37, R43, R59: what a read of each register returns, all else unchanged (a NOW read is a sample of the
clock, R41): CMD, operands, NOW and CFG in every state, a result register once the block is idle and the results
are settled. -/
def Obligations.RegisterReadsReturnTheirFields : Prop :=
  ∀ s : State,
    let got (v : Word) : State := { s with host := { s.host with rdata := v } }
    (busAccess s (.read 0x000 .w4) = .next (got 0) ∧
      busAccess s (.read 0x008 .w4) = .next (got (s.size.setWidth 32)) ∧
      busAccess s (.read 0x00C .w4) = .next (got s.t0) ∧
      busAccess s (.read 0x010 .w4) = .next (got s.tmo) ∧
      busAccess s (.read 0x018 .w4) = .next (got (s.aOff.setWidth 32)) ∧
      busAccess s (.read 0x01C .w4) = .next (got (s.aCnt.setWidth 32)) ∧
      busAccess s (.read 0x02C .w4) = .next (got (s.term.setWidth 32)) ∧
      busAccess s (.read 0x034 .w4) = .next { got s.now with sinceSample := some 0 } ∧
      busAccess s (.read 0x038 .w4) = .next (got (BitVec.ofNat 32 s.params.lbufSize))) ∧
    (s.curOp = none → s.unsettled = false →
      busAccess s (.read 0x014 .w4) = .next (got (s.len.setWidth 32)) ∧
      busAccess s (.read 0x020 .w4) = .next (got (s.crc.setWidth 32)) ∧
      busAccess s (.read 0x024 .w4) = .next (got (0#15 ++ BitVec.ofBool s.cksumOvf ++ s.cksumVal)) ∧
      busAccess s (.read 0x028 .w4) = .next (got (0#15 ++ BitVec.ofBool s.commaF ++ s.commaIdx)) ∧
      busAccess s (.read 0x030 .w4) = .next (got (s.olen.setWidth 32)))

/-- R23, R59: the fields of the STATUS word, in every state; a read that returns BUSY = 0 settles the result state,
and one that does not leaves it as it was. -/
def Obligations.StatusWordHasItsFields : Prop :=
  ∀ s : State, ∃ v : Word,
    busAccess s (.read 0x004 .w4) = .next { s with
      host := { s.host with rdata := v }, unsettled := if s.curOp = none then false else s.unsettled } ∧
    (v.getLsbD 0 = true ↔ s.curOp ≠ none) ∧
    (v.extractLsb' 4 4).toNat = (match s.res with
      | .none => 0 | .done => 1 | .line => 2 | .timeout => 3 | .found => 4 | .notFound => 5 | .valid => 6
      | .mismatch => 7) ∧
    (v.extractLsb' 8 4).toNat = (match s.err with | .none => 0 | .illegal => 1 | .range => 2) ∧
    v.getLsbD 12 = s.ovr ∧ v.getLsbD 13 = s.trunc ∧
    (v.extractLsb' 16 2).toNat = (match s.lrState with | .idle => 0 | .accumulating => 1 | .crPending => 2) ∧
    (v.getLsbD 20 = true ↔ s.rx ≠ []) ∧
    (∀ k, k ∈ [1, 2, 3, 14, 15, 18, 19, 21, 22, 23, 24, 25, 26, 27, 28, 29, 30, 31] → v.getLsbD k = false)

/-- R24 to R29, R33: an idle write of an operand register sets its field, bits beyond it ignored. -/
def Obligations.OperandWritesSetTheirFields : Prop :=
  ∀ (s : State) (v : Word), s.curOp = none →
    busAccess s (.write 0x008 .w4 v) = .next { s with size := v.setWidth 16 } ∧
    busAccess s (.write 0x00C .w4 v) = .next { s with t0 := v } ∧
    busAccess s (.write 0x010 .w4 v) = .next { s with tmo := v } ∧
    busAccess s (.write 0x014 .w4 v) = .next { s with len := v.setWidth 16 } ∧
    busAccess s (.write 0x018 .w4 v) = .next { s with aOff := v.setWidth 16 } ∧
    busAccess s (.write 0x01C .w4 v) = .next { s with aCnt := v.setWidth 16 } ∧
    busAccess s (.write 0x02C .w4 v) = .next { s with term := v.setWidth 8 }

/-- R22, R38, R51, R204: writes to read-only registers, reserved offsets, OBUF and the reserved range are
ignored, and the reserved ones read 0. -/
def Obligations.IgnoredAndReservedAccesses : Prop :=
  ∀ (s : State) (a : BitVec 14) (w : Width) (v : Word), aligned a.toNat w = true →
    ((a.toNat ∈ [0x004, 0x020, 0x024, 0x028, 0x030, 0x034, 0x038] ∨
        (0x03C ≤ a.toNat ∧ a.toNat < 0x1000) ∨ 0x2000 ≤ a.toNat) →
      busAccess s (.write a w v) = .next s) ∧
    ((0x03C ≤ a.toNat ∧ a.toNat < 0x1000) ∨ 0x3000 ≤ a.toNat →
      busAccess s (.read a w) = .next { s with host := { s.host with rdata := 0 } })

/-- R53, R204: a register access that is not 4 bytes wide at a multiple of 4, and a window access not at a
multiple of its width, is a host fault; every other access of the registers and windows completes (R208). -/
def Obligations.MisalignedAccessesFault : Prop :=
  ∀ (s : State) (a : BitVec 14) (w : Width) (v : Word), a.toNat < 0x3000 →
    let good := (a.toNat < 0x1000 ∧ w = .w4 ∧ a.toNat % 4 = 0) ∨
      (0x1000 ≤ a.toNat ∧ a.toNat % (match w with | .w1 => 1 | .w2 => 2 | .w4 => 4) = 0)
    (good → ∃ t u, busAccess s (.read a w) = .next t ∧ busAccess s (.write a w v) = .next u) ∧
    (¬ good → busAccess s (.read a w) = .fault (.hostAccess (.read a w)) ∧
      busAccess s (.write a w v) = .fault (.hostAccess (.write a w v)))

/-- R51, R52, R59: an aligned window read, of an idle block whose results are settled, returns the bytes at
`a, a+1, ...` as the least to most significant bytes of the bus value, a byte past its buffer reads 0, and nothing
else changes. -/
def Obligations.WindowReadsAreLittleEndian : Prop :=
  ∀ (s : State) (a : BitVec 14) (w : Width), s.curOp = none → s.unsettled = false → s.params.wf = true →
    aligned a.toNat w = true → 0x1000 ≤ a.toNat → a.toNat < 0x3000 →
    ∃ v : Word,
      busAccess s (.read a w) = .next { s with host := { s.host with rdata := v } } ∧
      ∀ k, k < 4 → v.extractLsb' (8 * k) 8 =
        if (match w with | .w1 => 1 | .w2 => 2 | .w4 => 4) ≤ k then 0
        else if a.toNat < 0x2000 then
          (if a.toNat + k - 0x1000 < s.params.lbufSize then s.lbuf (a.toNat + k - 0x1000) else 0)
        else if a.toNat + k - 0x2000 < s.params.lbufSize + 7 then s.obuf (a.toNat + k - 0x2000) else 0

/-- R51, R52, R58: an idle, aligned write to the LBUF window stores the bytes of the value, least significant
first, into the bytes it covers that lie inside LBUF; every other byte and everything else is unchanged. -/
def Obligations.WindowWritesAreLittleEndian : Prop :=
  ∀ (s : State) (a : BitVec 14) (w : Width) (v : Word), s.curOp = none → s.params.wf = true →
    aligned a.toNat w = true → 0x1000 ≤ a.toNat → a.toNat < 0x2000 →
    ∃ m : Memory,
      busAccess s (.write a w v) = .next { s with mem := m } ∧
      ∀ x, ({ s with mem := m } : State).cell x =
        if a.toNat ≤ x ∧ x < a.toNat + (match w with | .w1 => 1 | .w2 => 2 | .w4 => 4) ∧
            x < 0x1000 + s.params.lbufSize
        then v.extractLsb' (8 * (x - a.toNat)) 8 else s.cell x

/-- R42: while busy, a host write to anything but CMD is ignored. -/
def Obligations.WritesWhileBusyAreIgnored : Prop :=
  ∀ (s : State) (a : BitVec 14) (w : Width) (v : Word), s.curOp ≠ none → a ≠ 0x000 →
    aligned a.toNat w = true → busAccess s (.write a w v) = .next s

/-- R43, R59: while busy, and after an accepted command until a STATUS read returns BUSY = 0, a read of a result
register or of a window returns some value and changes nothing of the block; a read of SIZE, T0, TMO, A_OFF,
A_CNT, TERM, NOW or CFG returns its value. R37: CMD reads 0. Nothing but an accepted CMD write brings that time
about, and a reset ends it (log 23). Each such read of a busy block takes a draw, one of an idle block none (R54,
log 25). -/
def Obligations.ReadsWhileBusy : Prop :=
  (∀ s : State, s.curOp ≠ none ∨ s.unsettled = true →
    let got (v : Word) : State := { s with host := { s.host with rdata := v } }
    (∀ (a : BitVec 14) (w : Width), aligned a.toNat w = true →
      (a.toNat ∈ [0x014, 0x020, 0x024, 0x028, 0x030] ∨ (0x1000 ≤ a.toNat ∧ a.toNat < 0x3000)) →
      ∃ v : Word, busAccess s (.read a w) =
        .next { s with
          host := { s.host with rdata := v }, free := if s.curOp = none then s.free else s.free + 1 }) ∧
    (busAccess s (.read 0x000 .w4) = .next (got 0) ∧
      busAccess s (.read 0x008 .w4) = .next (got (s.size.setWidth 32)) ∧
      busAccess s (.read 0x00C .w4) = .next (got s.t0) ∧
      busAccess s (.read 0x010 .w4) = .next (got s.tmo) ∧
      busAccess s (.read 0x018 .w4) = .next (got (s.aOff.setWidth 32)) ∧
      busAccess s (.read 0x01C .w4) = .next (got (s.aCnt.setWidth 32)) ∧
      busAccess s (.read 0x02C .w4) = .next (got (s.term.setWidth 32)) ∧
      busAccess s (.read 0x034 .w4) = .next { got s.now with sinceSample := some 0 } ∧
      busAccess s (.read 0x038 .w4) = .next (got (BitVec.ofNat 32 s.params.lbufSize)))) ∧
  (∀ s t : State, step s = .next t → s.unsettled = false → t.unsettled = true →
    s.curOp = none ∧ ∃ rest v ops, s.env = .host :: rest ∧ s.host.script = .acc (.write 0x000 .w4 v) :: ops) ∧
  ∀ (s : State) (rest : List Event), s.env = .rst :: rest → ∃ t, step s = .next t ∧ t.unsettled = false

/-! ### The machine as a whole -/

/-- R220, R221: RST gives every register and internal state its reset value, whatever the block is doing, and
leaves the port's bytes and the clock. -/
def Obligations.ResetInputGivesResetValues : Prop :=
  ∀ (s : State) (rest : List Event), s.env = .rst :: rest →
    ∃ t, step s = .next t ∧
      t.curOp = none ∧ t.res = .none ∧ t.err = .none ∧ t.ovr = false ∧ t.trunc = false ∧ t.lrState = .idle ∧
      t.size = 0 ∧ t.t0 = 0 ∧ t.tmo = 0 ∧ t.len = 0 ∧ t.aOff = 0 ∧ t.aCnt = 0 ∧ t.crc = 0 ∧
      t.cksumVal = 0 ∧ t.cksumOvf = false ∧ t.commaIdx = 0 ∧ t.commaF = false ∧ t.term = 0x0A ∧ t.olen = 0 ∧
      t.lrLen = 0 ∧ t.crTime = 0 ∧ t.rx = s.rx ∧ t.now = s.now

/-- The model's start (R220 for the block's state, logs 3, 14, 15, 17 for the rest) meets the invariant, for
every legal LBUF_SIZE. -/
def Obligations.ResetStateMeetsInvariant : Prop :=
  State.reset.Inv ∧ ∀ p : Params, p.wf = true → (State.resetWith p).Inv

/-- Every step keeps the invariant: the memory's canonical form and bounds (R55), the latched word legal (R70),
READLINE's running length below its capacity (R134), no result while busy (R23), results unsettled while busy
(R59), COMMA (R32), OLEN (R172).
The parameters never change (R5 to R9), in any state. -/
def Obligations.StepKeepsInvariant : Prop :=
  ∀ s t : State, step s = .next t → t.params = s.params ∧ (s.Inv → t.Inv)

/-- R41, U10 (log 13): the clock advances modulo 2^32 and nothing else changes; the run is refused where the
advance since the last sample reaches 2^31. -/
def Obligations.ClockAdvances : Prop :=
  ∀ (s : State) (d : Word) (rest : List Event), s.env = .tick d :: rest →
    (s.sinceSample = none → step s = .next { s with now := s.now + d, env := rest }) ∧
    (∀ e, s.sinceSample = some e → e + d.toNat < 2 ^ 31 →
      step s = .next { s with now := s.now + d, sinceSample := some (e + d.toNat), env := rest }) ∧
    (∀ e, s.sinceSample = some e → 2 ^ 31 ≤ e + d.toNat → step s = .refused .clockJump)

/-- R40: the block takes bytes from the port only by a READLINE block step, one at most, from the front;
otherwise the port's bytes only grow, at the back, by an arrival. -/
def Obligations.OnlyReadlinePopsThePort : Prop :=
  ∀ s t : State, step s = .next t →
    t.rx = s.rx ∨ (∃ bs, s.env.head? = some (.arrive bs) ∧ t.rx = s.rx ++ bs) ∨
      (s.curOp = some 0x00000002#32 ∧ (s.env.head? = none ∨ s.env.head? = some .block) ∧
        ∃ b, s.rx = b :: t.rx)

/-- R42, R62: from a busy state no step but a reset changes an operand register, but that the step which ends the
command may write LEN, its result (R44); and the latched word stays until the command ends. -/
def Obligations.OperandsAreFrozenWhileBusy : Prop :=
  ∀ s t : State, s.curOp ≠ none → step s = .next t → s.env.head? ≠ some .rst →
    t.size = s.size ∧ t.t0 = s.t0 ∧ t.tmo = s.tmo ∧ t.aOff = s.aOff ∧ t.aCnt = s.aCnt ∧ t.term = s.term ∧
      (t.len = s.len ∨ (t.curOp = none ∧ (s.env.head? = none ∨ s.env.head? = some .block))) ∧
      (t.curOp = s.curOp ∨ t.curOp = none)

/-- R58: a buffer byte changes only by a reset, by a block step of a running command, or by a host step while
the block is idle, and the host changes LBUF only. -/
def Obligations.BufferBytesChangeOnlyByTheirWriters : Prop :=
  ∀ (s t : State) (a : Nat), s.params.wf = true → step s = .next t → t.cell a ≠ s.cell a →
    s.env.head? = some .rst ∨
      (s.curOp ≠ none ∧ (s.env.head? = none ∨ s.env.head? = some .block)) ∨
      (s.curOp = none ∧ s.env.head? = some .host ∧ 0x1000 ≤ a ∧ a < 0x1000 + s.params.lbufSize)

/-- R204 (U4): the run faults exactly when the host's next access breaks the alignment rule. No command
faults. -/
def Obligations.OnlyMisalignedHostAccessesFault : Prop :=
  ∀ (s : State) (r : Fault),
    step s = .fault r ↔
      ∃ rest x ops, s.env = .host :: rest ∧ s.host.script = .acc x :: ops ∧ r = .hostAccess x ∧
        (match x with
          | .read a w => aligned a.toNat w = false
          | .write a w _ => aligned a.toNat w = false)

/-- U10, R186, R189 (logs 13, 19): the run is refused exactly for a clock jump past the bound, a call to a host
that is not idle, and a call of sendData with a payload longer than LBUF. No command is refused. -/
def Obligations.NoCommandIsRefused : Prop :=
  (∀ (i : Instr) (s : State), ∃ t, exec i s = .next t) ∧
  ∀ (s : State) (r : Refusal), step s = .refused r ↔
    (∃ d e, s.env.head? = some (.tick d) ∧ s.sinceSample = some e ∧ 2 ^ 31 ≤ e + d.toNat ∧
        r = .clockJump) ∨
      (∃ c, s.env.head? = some (.call c) ∧ (s.host.script ≠ [] ∨ s.host.proc ≠ .none) ∧
        r = .procedureRunning) ∨
      (∃ p, s.env.head? = some (.call (.sendData p)) ∧ s.host.script = [] ∧ s.host.proc = .none ∧
        s.params.lbufSize < p.length ∧ r = .payloadTooLong)

/-- R54, R59: a read changes nothing but what the host sees (and the model's counters of samples and draws), and,
if it is a STATUS read that returns BUSY = 0, that the result state is settled. On an idle block it takes no draw
either, so that a read is idempotent, of unsettled results too (log 25): it returns the same again after anything
that leaves the block alone, but for NOW and for STATUS.RXAV, which are live. -/
def Obligations.ReadsHaveNoSideEffect : Prop :=
  (∀ (s t : State) (a : BitVec 14) (w : Width), busAccess s (.read a w) = .next t →
    t = { s with
      host := { s.host with rdata := t.host.rdata }, sinceSample := t.sinceSample, free := t.free,
      unsettled := t.unsettled } ∧
    (t.unsettled = s.unsettled ∨ (a = 0x004 ∧ s.curOp = none ∧ t.unsettled = false)) ∧
    (s.curOp = none → t.free = s.free)) ∧
  ∀ (s t u : State) (a : BitVec 14) (w : Width), s.curOp = none →
    u = { s with
      rx := u.rx, now := u.now, sinceSample := u.sinceSample, host := u.host, env := u.env } →
    (a = 0x004 → u.rx = s.rx) → (a = 0x034 → u.now = s.now) →
    busAccess s (.read a w) = .next t →
    ∃ v, busAccess u (.read a w) = .next v ∧ v.host.rdata = t.host.rdata

/-! ### The host procedures (45_host_procedures.md) -/

/-- R77: the pseudo-operation `load "s"` puts the bytes in LBUF and their number in LEN, and changes nothing
else of the block. -/
def Obligations.LoadStoresTheString : Prop :=
  ∀ (s : State) (p : List Byte) (tail : List ScriptOp),
    s.params.wf = true → s.curOp = none → p.length ≤ s.params.lbufSize → s.host.script = opLoad p ++ tail →
    ∃ m : Memory,
      hostRun (p.length + 1) s = .next { s with
        mem := m, len := BitVec.ofNat 16 p.length, host := { s.host with script := tail } } ∧
      ({ s with mem := m } : State).lbufSpan 0 p.length = p ∧
      ∀ a, a < 0x1000 ∨ 0x1000 + p.length ≤ a → ({ s with mem := m } : State).cell a = s.cell a

/-- R186: sendData called on an idle block: the host loads the payload and commands ENCODE, the block encodes,
and the host hands the frame of the payload to the transport. The host's steps, and that sendData's result is the
frame it hands over, are the model's reading (log 18). -/
def Obligations.SendDataBuildsTheFrame : Prop :=
  ∀ (s : State) (p : List Byte),
    s.params.wf = true → s.curOp = none → s.host.script = [] → s.host.proc = .none →
    p.length ≤ s.params.lbufSize →
    ∃ a b c n d,
      startCall s (.sendData p) = .next a ∧ hostRun (p.length + 2) a = .next b ∧ blockStep b = .next c ∧
      hostRun n c = .next d ∧ d.host.proc = .none ∧ d.host.script = [] ∧
      d.host.result = some (.sent (frame p s.term))

/-- R181: receiveData called on an idle block with a size in range samples NOW and writes SIZE, T0 and TMO,
then enters its loop. Nothing else of the block changes. -/
def Obligations.ReceiveDataSetsItsDeadline : Prop :=
  ∀ (s : State) (pfx : List Byte) (size : Nat) (timeout : Word),
    s.params.wf = true → s.curOp = none → s.host.script = [] → s.host.proc = .none →
    1 ≤ size → size ≤ s.params.lbufSize →
    ∃ a t, startCall s (.receiveData pfx size timeout) = .next a ∧ hostRun 5 a = .next t ∧
      t.host.proc = .recvLoop pfx ∧ t.host.script = [] ∧
      t = { s with
        size := BitVec.ofNat 16 size, t0 := s.now, tmo := timeout, sinceSample := some 0, host := t.host }

/-- R181, R184: receiveData returns failure on a size outside 1 to LBUF_SIZE with no command run, and on
TIMEOUT; on MISMATCH and NOT_FOUND it goes back to its loop and returns nothing. -/
def Obligations.ReceiveDataFailures : Prop :=
  ∀ s : State, s.host.script = [] →
    (∀ pfx size timeout, s.host.proc = .none → (size < 1 ∨ s.params.lbufSize < size) →
      startCall s (.receiveData pfx size timeout) =
        .next { s with host := { s.host with proc := .none, result := some .failed } }) ∧
    (∀ pfx, s.host.proc = .recvLine pfx → (s.host.rdata.extractLsb' 4 4).toNat = 3 →
      hostStep s = .next { s with host := { s.host with proc := .none, result := some .failed } }) ∧
    (∀ pfx, s.host.proc = .recvFrame pfx →
      (s.host.rdata.extractLsb' 4 4).toNat = 7 ∨ (s.host.rdata.extractLsb' 4 4).toNat = 5 →
      hostStep s = .next { s with host := { s.host with proc := .recvLoop pfx, script := [] } })

/-- R181, R188: in the receive loop the host never writes SIZE, T0 or TMO, so every retry keeps the same
original deadline. -/
def Obligations.RetriesKeepTheDeadline : Prop :=
  ∀ s t : State, s.host.script = [] → s.host.proc.inReceiveLoop = true → hostStep s = .next t →
    (t.host.proc.inReceiveLoop = true ∨ t.host.proc = .none) ∧
    ∀ op ∈ t.host.script,
      opWritesReg .size op = false ∧ opWritesReg .t0 op = false ∧ opWritesReg .tmo op = false

/-- R181, R182, R183: after VALID (a STATUS read, so the results are settled), receiveData copies the payload
and its NUL out of LBUF, and returns the payload without the prefix if it starts with the prefix, or goes back to
its loop if it does not. The block is untouched. What the host's buffer holds after a discarded line is the model's choice (log 24), and not stated. -/
def Obligations.ReceiveDataAppliesThePrefix : Prop :=
  ∀ (s : State) (pfx : List Byte),
    s.params.wf = true → s.curOp = none → s.unsettled = false → s.host.script = [] →
    s.host.proc = .recvFrame pfx →
    (s.host.rdata.extractLsb' 4 4).toNat = 6 → s.len.toNat < s.params.lbufSize →
    ∃ n t, hostRun n s = .next t ∧ t.host.script = [] ∧ t = { s with host := t.host } ∧
      (pfx <+: s.lbufSpan 0 s.len.toNat →
        t.host.proc = .none ∧
        t.host.result = some (.received ((s.lbufSpan 0 s.len.toNat).drop pfx.length)) ∧
        t.host.buf = (s.lbufSpan 0 s.len.toNat).drop pfx.length ++ [s.lbuf s.len.toNat]) ∧
      (¬ pfx <+: s.lbufSpan 0 s.len.toNat →
        t.host.proc = .recvLoop pfx ∧ t.host.result = s.host.result)

/-- R185: waitUntilAvailable takes t0 from NOW, looks at RXAV, then at its deadline, and looks again; it consumes
nothing and starts no command. One access or decision a step is the model's reading (log 18). -/
def Obligations.WaitUntilAvailablePolls : Prop :=
  ∀ (s : State) (t0 timeout : Word), s.host.script = [] →
    (s.host.proc = .none →
      ∃ a b, startCall s (.waitUntilAvailable timeout) = .next a ∧ hostStep a = .next b ∧
        hostStep b = .next { s with
          sinceSample := some 0
          host := { s.host with
            proc := .availStatus s.now timeout, rdata := s.now, script := [.acc (.read 0x004 .w4)],
            result := none } }) ∧
    (s.host.proc = .availStatus t0 timeout →
      (s.host.rdata.getLsbD 20 = true → hostStep s = .next
        { s with host := { s.host with proc := .none, result := some (.available true) } }) ∧
      (s.host.rdata.getLsbD 20 = false → hostStep s = .next
        { s with host := { s.host with
          proc := .availTime t0 timeout, script := [.acc (.read 0x034 .w4)] } })) ∧
    (s.host.proc = .availTime t0 timeout →
      (expired s.params.deadlineCmp (s.host.rdata - t0) timeout = true → hostStep s = .next
        { s with host := { s.host with proc := .none, result := some (.available false) } }) ∧
      (expired s.params.deadlineCmp (s.host.rdata - t0) timeout = false → hostStep s = .next
        { s with host := { s.host with
          proc := .availStatus t0 timeout, script := [.acc (.read 0x004 .w4)] } }))
end

