-- ==== Sys2Proof/Laws/State.lean ====
section
/-! SUPPORT. One lemma per field of State for each shared update of it, true by rfl, so that no later proof
unfolds a record update. -/

namespace Sys2Proof.Machine

variable (s : State)


/-! ### `State.finish` -/

@[simp] theorem State.finish_params (r : Res) : (s.finish r).params = s.params := rfl
@[simp] theorem State.finish_res (r : Res) : (s.finish r).res = r := rfl
@[simp] theorem State.finish_err (r : Res) : (s.finish r).err = s.err := rfl
@[simp] theorem State.finish_ovr (r : Res) : (s.finish r).ovr = s.ovr := rfl
@[simp] theorem State.finish_trunc (r : Res) : (s.finish r).trunc = s.trunc := rfl
@[simp] theorem State.finish_size (r : Res) : (s.finish r).size = s.size := rfl
@[simp] theorem State.finish_t0 (r : Res) : (s.finish r).t0 = s.t0 := rfl
@[simp] theorem State.finish_tmo (r : Res) : (s.finish r).tmo = s.tmo := rfl
@[simp] theorem State.finish_len (r : Res) : (s.finish r).len = s.len := rfl
@[simp] theorem State.finish_aOff (r : Res) : (s.finish r).aOff = s.aOff := rfl
@[simp] theorem State.finish_aCnt (r : Res) : (s.finish r).aCnt = s.aCnt := rfl
@[simp] theorem State.finish_crc (r : Res) : (s.finish r).crc = s.crc := rfl
@[simp] theorem State.finish_cksumVal (r : Res) : (s.finish r).cksumVal = s.cksumVal := rfl
@[simp] theorem State.finish_cksumOvf (r : Res) : (s.finish r).cksumOvf = s.cksumOvf := rfl
@[simp] theorem State.finish_commaIdx (r : Res) : (s.finish r).commaIdx = s.commaIdx := rfl
@[simp] theorem State.finish_commaF (r : Res) : (s.finish r).commaF = s.commaF := rfl
@[simp] theorem State.finish_term (r : Res) : (s.finish r).term = s.term := rfl
@[simp] theorem State.finish_olen (r : Res) : (s.finish r).olen = s.olen := rfl
@[simp] theorem State.finish_curOp (r : Res) : (s.finish r).curOp = none := rfl
@[simp] theorem State.finish_lrState (r : Res) : (s.finish r).lrState = s.lrState := rfl
@[simp] theorem State.finish_lrLen (r : Res) : (s.finish r).lrLen = s.lrLen := rfl
@[simp] theorem State.finish_crTime (r : Res) : (s.finish r).crTime = s.crTime := rfl
@[simp] theorem State.finish_mem (r : Res) : (s.finish r).mem = s.mem := rfl
@[simp] theorem State.finish_rx (r : Res) : (s.finish r).rx = s.rx := rfl
@[simp] theorem State.finish_now (r : Res) : (s.finish r).now = s.now := rfl
@[simp] theorem State.finish_sinceSample (r : Res) : (s.finish r).sinceSample = s.sinceSample := rfl
@[simp] theorem State.finish_unsettled (r : Res) : (s.finish r).unsettled = s.unsettled := rfl
@[simp] theorem State.finish_free (r : Res) : (s.finish r).free = s.free := rfl
@[simp] theorem State.finish_ramDraw (r : Res) : (s.finish r).ramDraw = s.ramDraw := rfl
@[simp] theorem State.finish_host (r : Res) : (s.finish r).host = s.host := rfl
@[simp] theorem State.finish_env (r : Res) : (s.finish r).env = s.env := rfl

/-! ### `State.raise` -/

@[simp] theorem State.raise_params (e : Err) : (s.raise e).params = s.params := rfl
@[simp] theorem State.raise_res (e : Err) : (s.raise e).res = .none := rfl
@[simp] theorem State.raise_err (e : Err) : (s.raise e).err = e := rfl
@[simp] theorem State.raise_ovr (e : Err) : (s.raise e).ovr = s.ovr := rfl
@[simp] theorem State.raise_trunc (e : Err) : (s.raise e).trunc = s.trunc := rfl
@[simp] theorem State.raise_size (e : Err) : (s.raise e).size = s.size := rfl
@[simp] theorem State.raise_t0 (e : Err) : (s.raise e).t0 = s.t0 := rfl
@[simp] theorem State.raise_tmo (e : Err) : (s.raise e).tmo = s.tmo := rfl
@[simp] theorem State.raise_len (e : Err) : (s.raise e).len = s.len := rfl
@[simp] theorem State.raise_aOff (e : Err) : (s.raise e).aOff = s.aOff := rfl
@[simp] theorem State.raise_aCnt (e : Err) : (s.raise e).aCnt = s.aCnt := rfl
@[simp] theorem State.raise_crc (e : Err) : (s.raise e).crc = s.crc := rfl
@[simp] theorem State.raise_cksumVal (e : Err) : (s.raise e).cksumVal = s.cksumVal := rfl
@[simp] theorem State.raise_cksumOvf (e : Err) : (s.raise e).cksumOvf = s.cksumOvf := rfl
@[simp] theorem State.raise_commaIdx (e : Err) : (s.raise e).commaIdx = s.commaIdx := rfl
@[simp] theorem State.raise_commaF (e : Err) : (s.raise e).commaF = s.commaF := rfl
@[simp] theorem State.raise_term (e : Err) : (s.raise e).term = s.term := rfl
@[simp] theorem State.raise_olen (e : Err) : (s.raise e).olen = s.olen := rfl
@[simp] theorem State.raise_curOp (e : Err) : (s.raise e).curOp = none := rfl
@[simp] theorem State.raise_lrState (e : Err) : (s.raise e).lrState = .idle := rfl
@[simp] theorem State.raise_lrLen (e : Err) : (s.raise e).lrLen = s.lrLen := rfl
@[simp] theorem State.raise_crTime (e : Err) : (s.raise e).crTime = s.crTime := rfl
@[simp] theorem State.raise_mem (e : Err) : (s.raise e).mem = s.mem := rfl
@[simp] theorem State.raise_rx (e : Err) : (s.raise e).rx = s.rx := rfl
@[simp] theorem State.raise_now (e : Err) : (s.raise e).now = s.now := rfl
@[simp] theorem State.raise_sinceSample (e : Err) : (s.raise e).sinceSample = s.sinceSample := rfl
@[simp] theorem State.raise_unsettled (e : Err) : (s.raise e).unsettled = s.unsettled := rfl
@[simp] theorem State.raise_free (e : Err) : (s.raise e).free = s.free := rfl
@[simp] theorem State.raise_ramDraw (e : Err) : (s.raise e).ramDraw = s.ramDraw := rfl
@[simp] theorem State.raise_host (e : Err) : (s.raise e).host = s.host := rfl
@[simp] theorem State.raise_env (e : Err) : (s.raise e).env = s.env := rfl

/-! ### `State.latch` -/

@[simp] theorem State.latch_params (w : Word) : (s.latch w).params = s.params := rfl
@[simp] theorem State.latch_res (w : Word) : (s.latch w).res = .none := rfl
@[simp] theorem State.latch_err (w : Word) : (s.latch w).err = .none := rfl
@[simp] theorem State.latch_ovr (w : Word) : (s.latch w).ovr = false := rfl
@[simp] theorem State.latch_trunc (w : Word) : (s.latch w).trunc = false := rfl
@[simp] theorem State.latch_size (w : Word) : (s.latch w).size = s.size := rfl
@[simp] theorem State.latch_t0 (w : Word) : (s.latch w).t0 = s.t0 := rfl
@[simp] theorem State.latch_tmo (w : Word) : (s.latch w).tmo = s.tmo := rfl
@[simp] theorem State.latch_len (w : Word) : (s.latch w).len = s.len := rfl
@[simp] theorem State.latch_aOff (w : Word) : (s.latch w).aOff = s.aOff := rfl
@[simp] theorem State.latch_aCnt (w : Word) : (s.latch w).aCnt = s.aCnt := rfl
@[simp] theorem State.latch_crc (w : Word) : (s.latch w).crc = s.crc := rfl
@[simp] theorem State.latch_cksumVal (w : Word) : (s.latch w).cksumVal = s.cksumVal := rfl
@[simp] theorem State.latch_cksumOvf (w : Word) : (s.latch w).cksumOvf = s.cksumOvf := rfl
@[simp] theorem State.latch_commaIdx (w : Word) : (s.latch w).commaIdx = s.commaIdx := rfl
@[simp] theorem State.latch_commaF (w : Word) : (s.latch w).commaF = s.commaF := rfl
@[simp] theorem State.latch_term (w : Word) : (s.latch w).term = s.term := rfl
@[simp] theorem State.latch_olen (w : Word) : (s.latch w).olen = s.olen := rfl
@[simp] theorem State.latch_curOp (w : Word) : (s.latch w).curOp = some w := rfl
@[simp] theorem State.latch_lrState (w : Word) : (s.latch w).lrState = s.lrState := rfl
@[simp] theorem State.latch_lrLen (w : Word) : (s.latch w).lrLen = s.lrLen := rfl
@[simp] theorem State.latch_crTime (w : Word) : (s.latch w).crTime = s.crTime := rfl
@[simp] theorem State.latch_mem (w : Word) : (s.latch w).mem = s.mem := rfl
@[simp] theorem State.latch_rx (w : Word) : (s.latch w).rx = s.rx := rfl
@[simp] theorem State.latch_now (w : Word) : (s.latch w).now = s.now := rfl
@[simp] theorem State.latch_sinceSample (w : Word) : (s.latch w).sinceSample = s.sinceSample := rfl
@[simp] theorem State.latch_unsettled (w : Word) : (s.latch w).unsettled = true := rfl
@[simp] theorem State.latch_free (w : Word) : (s.latch w).free = s.free + 1 := rfl
@[simp] theorem State.latch_ramDraw (w : Word) : (s.latch w).ramDraw = s.ramDraw := rfl
@[simp] theorem State.latch_host (w : Word) : (s.latch w).host = s.host := rfl
@[simp] theorem State.latch_env (w : Word) : (s.latch w).env = s.env := rfl

/-! ### `State.sampled` -/

@[simp] theorem State.sampled_params : (s.sampled).params = s.params := rfl
@[simp] theorem State.sampled_res : (s.sampled).res = s.res := rfl
@[simp] theorem State.sampled_err : (s.sampled).err = s.err := rfl
@[simp] theorem State.sampled_ovr : (s.sampled).ovr = s.ovr := rfl
@[simp] theorem State.sampled_trunc : (s.sampled).trunc = s.trunc := rfl
@[simp] theorem State.sampled_size : (s.sampled).size = s.size := rfl
@[simp] theorem State.sampled_t0 : (s.sampled).t0 = s.t0 := rfl
@[simp] theorem State.sampled_tmo : (s.sampled).tmo = s.tmo := rfl
@[simp] theorem State.sampled_len : (s.sampled).len = s.len := rfl
@[simp] theorem State.sampled_aOff : (s.sampled).aOff = s.aOff := rfl
@[simp] theorem State.sampled_aCnt : (s.sampled).aCnt = s.aCnt := rfl
@[simp] theorem State.sampled_crc : (s.sampled).crc = s.crc := rfl
@[simp] theorem State.sampled_cksumVal : (s.sampled).cksumVal = s.cksumVal := rfl
@[simp] theorem State.sampled_cksumOvf : (s.sampled).cksumOvf = s.cksumOvf := rfl
@[simp] theorem State.sampled_commaIdx : (s.sampled).commaIdx = s.commaIdx := rfl
@[simp] theorem State.sampled_commaF : (s.sampled).commaF = s.commaF := rfl
@[simp] theorem State.sampled_term : (s.sampled).term = s.term := rfl
@[simp] theorem State.sampled_olen : (s.sampled).olen = s.olen := rfl
@[simp] theorem State.sampled_curOp : (s.sampled).curOp = s.curOp := rfl
@[simp] theorem State.sampled_lrState : (s.sampled).lrState = s.lrState := rfl
@[simp] theorem State.sampled_lrLen : (s.sampled).lrLen = s.lrLen := rfl
@[simp] theorem State.sampled_crTime : (s.sampled).crTime = s.crTime := rfl
@[simp] theorem State.sampled_mem : (s.sampled).mem = s.mem := rfl
@[simp] theorem State.sampled_rx : (s.sampled).rx = s.rx := rfl
@[simp] theorem State.sampled_now : (s.sampled).now = s.now := rfl
@[simp] theorem State.sampled_sinceSample : (s.sampled).sinceSample = some 0 := rfl
@[simp] theorem State.sampled_unsettled : (s.sampled).unsettled = s.unsettled := rfl
@[simp] theorem State.sampled_free : (s.sampled).free = s.free := rfl
@[simp] theorem State.sampled_ramDraw : (s.sampled).ramDraw = s.ramDraw := rfl
@[simp] theorem State.sampled_host : (s.sampled).host = s.host := rfl
@[simp] theorem State.sampled_env : (s.sampled).env = s.env := rfl

/-! ### `State.rxPop` -/

@[simp] theorem State.rxPop_params : (s.rxPop).params = s.params := rfl
@[simp] theorem State.rxPop_res : (s.rxPop).res = s.res := rfl
@[simp] theorem State.rxPop_err : (s.rxPop).err = s.err := rfl
@[simp] theorem State.rxPop_ovr : (s.rxPop).ovr = s.ovr := rfl
@[simp] theorem State.rxPop_trunc : (s.rxPop).trunc = s.trunc := rfl
@[simp] theorem State.rxPop_size : (s.rxPop).size = s.size := rfl
@[simp] theorem State.rxPop_t0 : (s.rxPop).t0 = s.t0 := rfl
@[simp] theorem State.rxPop_tmo : (s.rxPop).tmo = s.tmo := rfl
@[simp] theorem State.rxPop_len : (s.rxPop).len = s.len := rfl
@[simp] theorem State.rxPop_aOff : (s.rxPop).aOff = s.aOff := rfl
@[simp] theorem State.rxPop_aCnt : (s.rxPop).aCnt = s.aCnt := rfl
@[simp] theorem State.rxPop_crc : (s.rxPop).crc = s.crc := rfl
@[simp] theorem State.rxPop_cksumVal : (s.rxPop).cksumVal = s.cksumVal := rfl
@[simp] theorem State.rxPop_cksumOvf : (s.rxPop).cksumOvf = s.cksumOvf := rfl
@[simp] theorem State.rxPop_commaIdx : (s.rxPop).commaIdx = s.commaIdx := rfl
@[simp] theorem State.rxPop_commaF : (s.rxPop).commaF = s.commaF := rfl
@[simp] theorem State.rxPop_term : (s.rxPop).term = s.term := rfl
@[simp] theorem State.rxPop_olen : (s.rxPop).olen = s.olen := rfl
@[simp] theorem State.rxPop_curOp : (s.rxPop).curOp = s.curOp := rfl
@[simp] theorem State.rxPop_lrState : (s.rxPop).lrState = s.lrState := rfl
@[simp] theorem State.rxPop_lrLen : (s.rxPop).lrLen = s.lrLen := rfl
@[simp] theorem State.rxPop_crTime : (s.rxPop).crTime = s.crTime := rfl
@[simp] theorem State.rxPop_mem : (s.rxPop).mem = s.mem := rfl
@[simp] theorem State.rxPop_rx : (s.rxPop).rx = s.rx.tail := rfl
@[simp] theorem State.rxPop_now : (s.rxPop).now = s.now := rfl
@[simp] theorem State.rxPop_sinceSample : (s.rxPop).sinceSample = s.sinceSample := rfl
@[simp] theorem State.rxPop_unsettled : (s.rxPop).unsettled = s.unsettled := rfl
@[simp] theorem State.rxPop_free : (s.rxPop).free = s.free := rfl
@[simp] theorem State.rxPop_ramDraw : (s.rxPop).ramDraw = s.ramDraw := rfl
@[simp] theorem State.rxPop_host : (s.rxPop).host = s.host := rfl
@[simp] theorem State.rxPop_env : (s.rxPop).env = s.env := rfl

/-! ### `State.setLbuf` -/

@[simp] theorem State.setLbuf_params (i : Nat) (b : Byte) : (s.setLbuf i b).params = s.params := rfl
@[simp] theorem State.setLbuf_res (i : Nat) (b : Byte) : (s.setLbuf i b).res = s.res := rfl
@[simp] theorem State.setLbuf_err (i : Nat) (b : Byte) : (s.setLbuf i b).err = s.err := rfl
@[simp] theorem State.setLbuf_ovr (i : Nat) (b : Byte) : (s.setLbuf i b).ovr = s.ovr := rfl
@[simp] theorem State.setLbuf_trunc (i : Nat) (b : Byte) : (s.setLbuf i b).trunc = s.trunc := rfl
@[simp] theorem State.setLbuf_size (i : Nat) (b : Byte) : (s.setLbuf i b).size = s.size := rfl
@[simp] theorem State.setLbuf_t0 (i : Nat) (b : Byte) : (s.setLbuf i b).t0 = s.t0 := rfl
@[simp] theorem State.setLbuf_tmo (i : Nat) (b : Byte) : (s.setLbuf i b).tmo = s.tmo := rfl
@[simp] theorem State.setLbuf_len (i : Nat) (b : Byte) : (s.setLbuf i b).len = s.len := rfl
@[simp] theorem State.setLbuf_aOff (i : Nat) (b : Byte) : (s.setLbuf i b).aOff = s.aOff := rfl
@[simp] theorem State.setLbuf_aCnt (i : Nat) (b : Byte) : (s.setLbuf i b).aCnt = s.aCnt := rfl
@[simp] theorem State.setLbuf_crc (i : Nat) (b : Byte) : (s.setLbuf i b).crc = s.crc := rfl
@[simp] theorem State.setLbuf_cksumVal (i : Nat) (b : Byte) : (s.setLbuf i b).cksumVal = s.cksumVal := rfl
@[simp] theorem State.setLbuf_cksumOvf (i : Nat) (b : Byte) : (s.setLbuf i b).cksumOvf = s.cksumOvf := rfl
@[simp] theorem State.setLbuf_commaIdx (i : Nat) (b : Byte) : (s.setLbuf i b).commaIdx = s.commaIdx := rfl
@[simp] theorem State.setLbuf_commaF (i : Nat) (b : Byte) : (s.setLbuf i b).commaF = s.commaF := rfl
@[simp] theorem State.setLbuf_term (i : Nat) (b : Byte) : (s.setLbuf i b).term = s.term := rfl
@[simp] theorem State.setLbuf_olen (i : Nat) (b : Byte) : (s.setLbuf i b).olen = s.olen := rfl
@[simp] theorem State.setLbuf_curOp (i : Nat) (b : Byte) : (s.setLbuf i b).curOp = s.curOp := rfl
@[simp] theorem State.setLbuf_lrState (i : Nat) (b : Byte) : (s.setLbuf i b).lrState = s.lrState := rfl
@[simp] theorem State.setLbuf_lrLen (i : Nat) (b : Byte) : (s.setLbuf i b).lrLen = s.lrLen := rfl
@[simp] theorem State.setLbuf_crTime (i : Nat) (b : Byte) : (s.setLbuf i b).crTime = s.crTime := rfl
@[simp] theorem State.setLbuf_mem (i : Nat) (b : Byte) : (s.setLbuf i b).mem = s.mem.set (lbufBase + i) b := rfl
@[simp] theorem State.setLbuf_rx (i : Nat) (b : Byte) : (s.setLbuf i b).rx = s.rx := rfl
@[simp] theorem State.setLbuf_now (i : Nat) (b : Byte) : (s.setLbuf i b).now = s.now := rfl
@[simp] theorem State.setLbuf_sinceSample (i : Nat) (b : Byte) : (s.setLbuf i b).sinceSample = s.sinceSample := rfl
@[simp] theorem State.setLbuf_unsettled (i : Nat) (b : Byte) : (s.setLbuf i b).unsettled = s.unsettled := rfl
@[simp] theorem State.setLbuf_free (i : Nat) (b : Byte) : (s.setLbuf i b).free = s.free := rfl
@[simp] theorem State.setLbuf_ramDraw (i : Nat) (b : Byte) : (s.setLbuf i b).ramDraw = s.ramDraw := rfl
@[simp] theorem State.setLbuf_host (i : Nat) (b : Byte) : (s.setLbuf i b).host = s.host := rfl
@[simp] theorem State.setLbuf_env (i : Nat) (b : Byte) : (s.setLbuf i b).env = s.env := rfl

/-! ### `State.setLbufs` -/

@[simp] theorem State.setLbufs_params (i : Nat) (bs : List Byte) : (s.setLbufs i bs).params = s.params := rfl
@[simp] theorem State.setLbufs_res (i : Nat) (bs : List Byte) : (s.setLbufs i bs).res = s.res := rfl
@[simp] theorem State.setLbufs_err (i : Nat) (bs : List Byte) : (s.setLbufs i bs).err = s.err := rfl
@[simp] theorem State.setLbufs_ovr (i : Nat) (bs : List Byte) : (s.setLbufs i bs).ovr = s.ovr := rfl
@[simp] theorem State.setLbufs_trunc (i : Nat) (bs : List Byte) : (s.setLbufs i bs).trunc = s.trunc := rfl
@[simp] theorem State.setLbufs_size (i : Nat) (bs : List Byte) : (s.setLbufs i bs).size = s.size := rfl
@[simp] theorem State.setLbufs_t0 (i : Nat) (bs : List Byte) : (s.setLbufs i bs).t0 = s.t0 := rfl
@[simp] theorem State.setLbufs_tmo (i : Nat) (bs : List Byte) : (s.setLbufs i bs).tmo = s.tmo := rfl
@[simp] theorem State.setLbufs_len (i : Nat) (bs : List Byte) : (s.setLbufs i bs).len = s.len := rfl
@[simp] theorem State.setLbufs_aOff (i : Nat) (bs : List Byte) : (s.setLbufs i bs).aOff = s.aOff := rfl
@[simp] theorem State.setLbufs_aCnt (i : Nat) (bs : List Byte) : (s.setLbufs i bs).aCnt = s.aCnt := rfl
@[simp] theorem State.setLbufs_crc (i : Nat) (bs : List Byte) : (s.setLbufs i bs).crc = s.crc := rfl
@[simp] theorem State.setLbufs_cksumVal (i : Nat) (bs : List Byte) : (s.setLbufs i bs).cksumVal = s.cksumVal := rfl
@[simp] theorem State.setLbufs_cksumOvf (i : Nat) (bs : List Byte) : (s.setLbufs i bs).cksumOvf = s.cksumOvf := rfl
@[simp] theorem State.setLbufs_commaIdx (i : Nat) (bs : List Byte) : (s.setLbufs i bs).commaIdx = s.commaIdx := rfl
@[simp] theorem State.setLbufs_commaF (i : Nat) (bs : List Byte) : (s.setLbufs i bs).commaF = s.commaF := rfl
@[simp] theorem State.setLbufs_term (i : Nat) (bs : List Byte) : (s.setLbufs i bs).term = s.term := rfl
@[simp] theorem State.setLbufs_olen (i : Nat) (bs : List Byte) : (s.setLbufs i bs).olen = s.olen := rfl
@[simp] theorem State.setLbufs_curOp (i : Nat) (bs : List Byte) : (s.setLbufs i bs).curOp = s.curOp := rfl
@[simp] theorem State.setLbufs_lrState (i : Nat) (bs : List Byte) : (s.setLbufs i bs).lrState = s.lrState := rfl
@[simp] theorem State.setLbufs_lrLen (i : Nat) (bs : List Byte) : (s.setLbufs i bs).lrLen = s.lrLen := rfl
@[simp] theorem State.setLbufs_crTime (i : Nat) (bs : List Byte) : (s.setLbufs i bs).crTime = s.crTime := rfl
@[simp] theorem State.setLbufs_mem (i : Nat) (bs : List Byte) : (s.setLbufs i bs).mem = s.mem.setAll (lbufBase + i) bs := rfl
@[simp] theorem State.setLbufs_rx (i : Nat) (bs : List Byte) : (s.setLbufs i bs).rx = s.rx := rfl
@[simp] theorem State.setLbufs_now (i : Nat) (bs : List Byte) : (s.setLbufs i bs).now = s.now := rfl
@[simp] theorem State.setLbufs_sinceSample (i : Nat) (bs : List Byte) : (s.setLbufs i bs).sinceSample = s.sinceSample := rfl
@[simp] theorem State.setLbufs_unsettled (i : Nat) (bs : List Byte) : (s.setLbufs i bs).unsettled = s.unsettled := rfl
@[simp] theorem State.setLbufs_free (i : Nat) (bs : List Byte) : (s.setLbufs i bs).free = s.free := rfl
@[simp] theorem State.setLbufs_ramDraw (i : Nat) (bs : List Byte) : (s.setLbufs i bs).ramDraw = s.ramDraw := rfl
@[simp] theorem State.setLbufs_host (i : Nat) (bs : List Byte) : (s.setLbufs i bs).host = s.host := rfl
@[simp] theorem State.setLbufs_env (i : Nat) (bs : List Byte) : (s.setLbufs i bs).env = s.env := rfl

/-! ### `State.setObufs` -/

@[simp] theorem State.setObufs_params (i : Nat) (bs : List Byte) : (s.setObufs i bs).params = s.params := rfl
@[simp] theorem State.setObufs_res (i : Nat) (bs : List Byte) : (s.setObufs i bs).res = s.res := rfl
@[simp] theorem State.setObufs_err (i : Nat) (bs : List Byte) : (s.setObufs i bs).err = s.err := rfl
@[simp] theorem State.setObufs_ovr (i : Nat) (bs : List Byte) : (s.setObufs i bs).ovr = s.ovr := rfl
@[simp] theorem State.setObufs_trunc (i : Nat) (bs : List Byte) : (s.setObufs i bs).trunc = s.trunc := rfl
@[simp] theorem State.setObufs_size (i : Nat) (bs : List Byte) : (s.setObufs i bs).size = s.size := rfl
@[simp] theorem State.setObufs_t0 (i : Nat) (bs : List Byte) : (s.setObufs i bs).t0 = s.t0 := rfl
@[simp] theorem State.setObufs_tmo (i : Nat) (bs : List Byte) : (s.setObufs i bs).tmo = s.tmo := rfl
@[simp] theorem State.setObufs_len (i : Nat) (bs : List Byte) : (s.setObufs i bs).len = s.len := rfl
@[simp] theorem State.setObufs_aOff (i : Nat) (bs : List Byte) : (s.setObufs i bs).aOff = s.aOff := rfl
@[simp] theorem State.setObufs_aCnt (i : Nat) (bs : List Byte) : (s.setObufs i bs).aCnt = s.aCnt := rfl
@[simp] theorem State.setObufs_crc (i : Nat) (bs : List Byte) : (s.setObufs i bs).crc = s.crc := rfl
@[simp] theorem State.setObufs_cksumVal (i : Nat) (bs : List Byte) : (s.setObufs i bs).cksumVal = s.cksumVal := rfl
@[simp] theorem State.setObufs_cksumOvf (i : Nat) (bs : List Byte) : (s.setObufs i bs).cksumOvf = s.cksumOvf := rfl
@[simp] theorem State.setObufs_commaIdx (i : Nat) (bs : List Byte) : (s.setObufs i bs).commaIdx = s.commaIdx := rfl
@[simp] theorem State.setObufs_commaF (i : Nat) (bs : List Byte) : (s.setObufs i bs).commaF = s.commaF := rfl
@[simp] theorem State.setObufs_term (i : Nat) (bs : List Byte) : (s.setObufs i bs).term = s.term := rfl
@[simp] theorem State.setObufs_olen (i : Nat) (bs : List Byte) : (s.setObufs i bs).olen = s.olen := rfl
@[simp] theorem State.setObufs_curOp (i : Nat) (bs : List Byte) : (s.setObufs i bs).curOp = s.curOp := rfl
@[simp] theorem State.setObufs_lrState (i : Nat) (bs : List Byte) : (s.setObufs i bs).lrState = s.lrState := rfl
@[simp] theorem State.setObufs_lrLen (i : Nat) (bs : List Byte) : (s.setObufs i bs).lrLen = s.lrLen := rfl
@[simp] theorem State.setObufs_crTime (i : Nat) (bs : List Byte) : (s.setObufs i bs).crTime = s.crTime := rfl
@[simp] theorem State.setObufs_mem (i : Nat) (bs : List Byte) : (s.setObufs i bs).mem = s.mem.setAll (obufBase + i) bs := rfl
@[simp] theorem State.setObufs_rx (i : Nat) (bs : List Byte) : (s.setObufs i bs).rx = s.rx := rfl
@[simp] theorem State.setObufs_now (i : Nat) (bs : List Byte) : (s.setObufs i bs).now = s.now := rfl
@[simp] theorem State.setObufs_sinceSample (i : Nat) (bs : List Byte) : (s.setObufs i bs).sinceSample = s.sinceSample := rfl
@[simp] theorem State.setObufs_unsettled (i : Nat) (bs : List Byte) : (s.setObufs i bs).unsettled = s.unsettled := rfl
@[simp] theorem State.setObufs_free (i : Nat) (bs : List Byte) : (s.setObufs i bs).free = s.free := rfl
@[simp] theorem State.setObufs_ramDraw (i : Nat) (bs : List Byte) : (s.setObufs i bs).ramDraw = s.ramDraw := rfl
@[simp] theorem State.setObufs_host (i : Nat) (bs : List Byte) : (s.setObufs i bs).host = s.host := rfl
@[simp] theorem State.setObufs_env (i : Nat) (bs : List Byte) : (s.setObufs i bs).env = s.env := rfl

/-! ### `State.returned` -/

@[simp] theorem State.returned_params (v : Word) : (s.returned v).params = s.params := rfl
@[simp] theorem State.returned_res (v : Word) : (s.returned v).res = s.res := rfl
@[simp] theorem State.returned_err (v : Word) : (s.returned v).err = s.err := rfl
@[simp] theorem State.returned_ovr (v : Word) : (s.returned v).ovr = s.ovr := rfl
@[simp] theorem State.returned_trunc (v : Word) : (s.returned v).trunc = s.trunc := rfl
@[simp] theorem State.returned_size (v : Word) : (s.returned v).size = s.size := rfl
@[simp] theorem State.returned_t0 (v : Word) : (s.returned v).t0 = s.t0 := rfl
@[simp] theorem State.returned_tmo (v : Word) : (s.returned v).tmo = s.tmo := rfl
@[simp] theorem State.returned_len (v : Word) : (s.returned v).len = s.len := rfl
@[simp] theorem State.returned_aOff (v : Word) : (s.returned v).aOff = s.aOff := rfl
@[simp] theorem State.returned_aCnt (v : Word) : (s.returned v).aCnt = s.aCnt := rfl
@[simp] theorem State.returned_crc (v : Word) : (s.returned v).crc = s.crc := rfl
@[simp] theorem State.returned_cksumVal (v : Word) : (s.returned v).cksumVal = s.cksumVal := rfl
@[simp] theorem State.returned_cksumOvf (v : Word) : (s.returned v).cksumOvf = s.cksumOvf := rfl
@[simp] theorem State.returned_commaIdx (v : Word) : (s.returned v).commaIdx = s.commaIdx := rfl
@[simp] theorem State.returned_commaF (v : Word) : (s.returned v).commaF = s.commaF := rfl
@[simp] theorem State.returned_term (v : Word) : (s.returned v).term = s.term := rfl
@[simp] theorem State.returned_olen (v : Word) : (s.returned v).olen = s.olen := rfl
@[simp] theorem State.returned_curOp (v : Word) : (s.returned v).curOp = s.curOp := rfl
@[simp] theorem State.returned_lrState (v : Word) : (s.returned v).lrState = s.lrState := rfl
@[simp] theorem State.returned_lrLen (v : Word) : (s.returned v).lrLen = s.lrLen := rfl
@[simp] theorem State.returned_crTime (v : Word) : (s.returned v).crTime = s.crTime := rfl
@[simp] theorem State.returned_mem (v : Word) : (s.returned v).mem = s.mem := rfl
@[simp] theorem State.returned_rx (v : Word) : (s.returned v).rx = s.rx := rfl
@[simp] theorem State.returned_now (v : Word) : (s.returned v).now = s.now := rfl
@[simp] theorem State.returned_sinceSample (v : Word) : (s.returned v).sinceSample = s.sinceSample := rfl
@[simp] theorem State.returned_unsettled (v : Word) : (s.returned v).unsettled = s.unsettled := rfl
@[simp] theorem State.returned_free (v : Word) : (s.returned v).free = s.free := rfl
@[simp] theorem State.returned_ramDraw (v : Word) : (s.returned v).ramDraw = s.ramDraw := rfl
@[simp] theorem State.returned_host (v : Word) : (s.returned v).host = { s.host with rdata := v } := rfl
@[simp] theorem State.returned_env (v : Word) : (s.returned v).env = s.env := rfl

/-! ### Small definitions over the updated state -/

@[simp] theorem State.busy_eq : s.busy = s.curOp.isSome := rfl
@[simp] theorem State.rxHead_eq : s.rxHead = s.rx.head? := rfl
@[simp] theorem State.fetch_eq : s.fetch = s.curOp := rfl

/-! ### `State.statusRead` -/

@[simp] theorem State.statusRead_params : (s.statusRead).params = s.params := rfl
@[simp] theorem State.statusRead_res : (s.statusRead).res = s.res := rfl
@[simp] theorem State.statusRead_err : (s.statusRead).err = s.err := rfl
@[simp] theorem State.statusRead_ovr : (s.statusRead).ovr = s.ovr := rfl
@[simp] theorem State.statusRead_trunc : (s.statusRead).trunc = s.trunc := rfl
@[simp] theorem State.statusRead_size : (s.statusRead).size = s.size := rfl
@[simp] theorem State.statusRead_t0 : (s.statusRead).t0 = s.t0 := rfl
@[simp] theorem State.statusRead_tmo : (s.statusRead).tmo = s.tmo := rfl
@[simp] theorem State.statusRead_len : (s.statusRead).len = s.len := rfl
@[simp] theorem State.statusRead_aOff : (s.statusRead).aOff = s.aOff := rfl
@[simp] theorem State.statusRead_aCnt : (s.statusRead).aCnt = s.aCnt := rfl
@[simp] theorem State.statusRead_crc : (s.statusRead).crc = s.crc := rfl
@[simp] theorem State.statusRead_cksumVal : (s.statusRead).cksumVal = s.cksumVal := rfl
@[simp] theorem State.statusRead_cksumOvf : (s.statusRead).cksumOvf = s.cksumOvf := rfl
@[simp] theorem State.statusRead_commaIdx : (s.statusRead).commaIdx = s.commaIdx := rfl
@[simp] theorem State.statusRead_commaF : (s.statusRead).commaF = s.commaF := rfl
@[simp] theorem State.statusRead_term : (s.statusRead).term = s.term := rfl
@[simp] theorem State.statusRead_olen : (s.statusRead).olen = s.olen := rfl
@[simp] theorem State.statusRead_curOp : (s.statusRead).curOp = s.curOp := rfl
@[simp] theorem State.statusRead_lrState : (s.statusRead).lrState = s.lrState := rfl
@[simp] theorem State.statusRead_lrLen : (s.statusRead).lrLen = s.lrLen := rfl
@[simp] theorem State.statusRead_crTime : (s.statusRead).crTime = s.crTime := rfl
@[simp] theorem State.statusRead_mem : (s.statusRead).mem = s.mem := rfl
@[simp] theorem State.statusRead_rx : (s.statusRead).rx = s.rx := rfl
@[simp] theorem State.statusRead_now : (s.statusRead).now = s.now := rfl
@[simp] theorem State.statusRead_sinceSample : (s.statusRead).sinceSample = s.sinceSample := rfl
@[simp] theorem State.statusRead_unsettled : (s.statusRead).unsettled = (s.busy && s.unsettled) := rfl
@[simp] theorem State.statusRead_free : (s.statusRead).free = s.free := rfl
@[simp] theorem State.statusRead_ramDraw : (s.statusRead).ramDraw = s.ramDraw := rfl
@[simp] theorem State.statusRead_host : (s.statusRead).host = { s.host with rdata := s.statusWord } := rfl
@[simp] theorem State.statusRead_env : (s.statusRead).env = s.env := rfl

end Sys2Proof.Machine
end

