-- ==== Sys2Proof/Laws/Memory.lean ====
section
/-! SUPPORT. The memory: a read after a write, writes elsewhere, and the canonical form that every memory
operation keeps. -/

namespace Sys2Proof.Machine

/-! ### One byte -/

@[simp] theorem Memory.get?_set_same (m : Memory) (a : Nat) (v : Byte) : (m.set a v).get? a = some v := by
  induction m with
  | nil => simp [Memory.set, Memory.get?]
  | cons c m ih =>
    obtain ⟨b, w⟩ := c
    unfold Memory.set
    split
    · simp [Memory.get?]
    · split
      · simp [Memory.get?]
      · rename_i h; simp [Memory.get?, h, ih]

theorem Memory.get?_set_ne (m : Memory) {a b : Nat} (v : Byte) (h : b ≠ a) :
    (m.set a v).get? b = m.get? b := by
  induction m with
  | nil => simp [Memory.set, Memory.get?, h]
  | cons c m ih =>
    obtain ⟨x, w⟩ := c
    unfold Memory.set
    split
    · simp [Memory.get?, h]
    · split
      · rename_i _ e; subst e; simp [Memory.get?, h]
      · simp [Memory.get?, ih]

theorem Memory.mem_set {m : Memory} {a : Nat} {v : Byte} {c : Host.Cell} (h : c ∈ m.set a v) :
    c = (a, v) ∨ c ∈ m := by
  induction m with
  | nil => simpa [Memory.set] using h
  | cons x m ih =>
    obtain ⟨b, w⟩ := x
    unfold Memory.set at h
    split at h
    · simpa using h
    · split at h
      · simp at h; tauto
      · simp only [List.mem_cons] at h ⊢
        rcases h with h | h
        · tauto
        · rcases ih h with h | h <;> tauto

/-- Every address of a memory lies at or above `lo`. -/
def Memory.above (lo : Nat) (m : Memory) : Prop := ∀ c ∈ m, lo ≤ c.1

theorem Memory.wf_cons {b : Nat} {w : Byte} {m : Memory} :
    Memory.wf ((b, w) :: m) = true ↔ Memory.above (b + 1) m ∧ m.wf = true := by
  induction m generalizing b w with
  | nil => simp [Memory.wf, Memory.above]
  | cons c m ih =>
    obtain ⟨x, y⟩ := c
    rw [Memory.wf, Bool.and_eq_true, decide_eq_true_iff, ih]
    simp only [Memory.above, List.forall_mem_cons]
    constructor
    · rintro ⟨h, h1, h2⟩
      exact ⟨⟨h, fun c hc => by have := h1 c hc; omega⟩, h1, h2⟩
    · rintro ⟨⟨h, _⟩, h1, h2⟩
      exact ⟨h, h1, h2⟩

/-- Writing a byte keeps the canonical form. -/
theorem Memory.wf_set {m : Memory} (h : m.wf = true) (a : Nat) (v : Byte) : (m.set a v).wf = true := by
  induction m with
  | nil => simp [Memory.set, Memory.wf]
  | cons c m ih =>
    obtain ⟨b, w⟩ := c
    have hc := Memory.wf_cons.1 h
    unfold Memory.set
    split
    · rename_i hab
      refine Memory.wf_cons.2 ⟨?_, h⟩
      intro c hm
      rcases List.mem_cons.1 hm with rfl | hm
      · exact hab
      · have := hc.1 c hm; omega
    · split
      · rename_i _ e; subst e
        exact Memory.wf_cons.2 hc
      · refine Memory.wf_cons.2 ⟨?_, ih hc.2⟩
        intro c hm
        rcases Memory.mem_set hm with rfl | hm
        · simp only; omega
        · exact hc.1 c hm

/-! ### Consecutive bytes -/

@[simp] theorem Memory.setAll_nil (m : Memory) (a : Nat) : m.setAll a [] = m := rfl

theorem Memory.wf_setAll {m : Memory} (h : m.wf = true) (a : Nat) (vs : List Byte) :
    (m.setAll a vs).wf = true := by
  induction vs generalizing m a with
  | nil => exact h
  | cons v vs ih => exact ih (Memory.wf_set h a v) (a + 1)

theorem Memory.get?_setAll_out (m : Memory) (a : Nat) (vs : List Byte) {b : Nat}
    (h : b < a ∨ a + vs.length ≤ b) : (m.setAll a vs).get? b = m.get? b := by
  induction vs generalizing m a with
  | nil => rfl
  | cons v vs ih =>
    simp only [List.length_cons] at h
    rw [Memory.setAll, ih _ _ (by omega), Memory.get?_set_ne _ _ (by omega)]

theorem Memory.get?_setAll_in (m : Memory) (a : Nat) (vs : List Byte) {i : Nat} (h : i < vs.length) :
    (m.setAll a vs).get? (a + i) = some (vs[i]) := by
  induction vs generalizing m a i with
  | nil => simp at h
  | cons v vs ih =>
    rw [Memory.setAll]
    cases i with
    | zero => rw [Memory.get?_setAll_out _ _ _ (by omega)]; simp
    | succ i =>
      have := ih (m.set a v) (a + 1) (i := i) (by simpa using h)
      simpa [Nat.add_assoc, Nat.add_comm 1 i] using this

theorem Memory.mem_setAll {m : Memory} {a : Nat} {vs : List Byte} {c : Host.Cell} (h : c ∈ m.setAll a vs) :
    (a ≤ c.1 ∧ c.1 < a + vs.length) ∨ c ∈ m := by
  induction vs generalizing m a with
  | nil => exact .inr h
  | cons v vs ih =>
    simp only [List.length_cons]
    rcases ih h with h | h
    · exact .inl ⟨by omega, by omega⟩
    · rcases Memory.mem_set h with rfl | h
      · exact .inl ⟨by simp, by simp⟩
      · exact .inr h

/-- The memory after reset is in canonical form. -/
theorem State.reset_mem_wf : State.reset.mem.wf = true := rfl

/-! ### Buffer bytes -/

variable (s : State)

/-- A buffer byte depends on the memory and on the draw alone. -/
theorem State.cell_congr {s t : State} (hm : t.mem = s.mem) (hd : t.ramDraw = s.ramDraw) (a : Nat) :
    t.cell a = s.cell a := by simp [State.cell, hm, hd]

theorem State.lbufSpan_congr {s t : State} {a n : Nat} (h : ∀ i < n, t.lbuf (a + i) = s.lbuf (a + i)) :
    t.lbufSpan a n = s.lbufSpan a n := by
  simp only [State.lbufSpan]
  exact List.map_congr_left fun i hi => h i (List.mem_range.1 hi)

@[simp] theorem State.lbufSpan_length (a n : Nat) : (s.lbufSpan a n).length = n := by simp [State.lbufSpan]

@[simp] theorem State.obufSpan_length (n : Nat) : (s.obufSpan n).length = n := by simp [State.obufSpan]

@[simp] theorem State.lbufSpan_getElem (a n i : Nat) (h : i < (s.lbufSpan a n).length) :
    (s.lbufSpan a n)[i] = s.lbuf (a + i) := by simp [State.lbufSpan]

@[simp] theorem State.obufSpan_getElem (n i : Nat) (h : i < (s.obufSpan n).length) :
    (s.obufSpan n)[i] = s.obuf i := by simp [State.obufSpan]

@[simp] theorem State.lbuf_setLbuf_same (i : Nat) (b : Byte) : (s.setLbuf i b).lbuf i = b := by
  simp [State.lbuf, State.cell]

theorem State.cell_setLbuf_ne {i a : Nat} (b : Byte) (h : a ≠ lbufBase + i) :
    (s.setLbuf i b).cell a = s.cell a := by
  simp [State.cell, Memory.get?_set_ne _ _ h]

theorem State.lbuf_setLbuf_ne {i j : Nat} (b : Byte) (h : j ≠ i) : (s.setLbuf i b).lbuf j = s.lbuf j :=
  s.cell_setLbuf_ne b (by omega)

theorem State.cell_setLbufs_out {i a : Nat} (bs : List Byte)
    (h : a < lbufBase + i ∨ lbufBase + i + bs.length ≤ a) : (s.setLbufs i bs).cell a = s.cell a := by
  simp [State.cell, Memory.get?_setAll_out _ _ _ h]

theorem State.lbuf_setLbufs_in {i j : Nat} (bs : List Byte) (h : j < bs.length) :
    (s.setLbufs i bs).lbuf (i + j) = bs[j] := by
  simp [State.lbuf, State.cell, ← Nat.add_assoc, Memory.get?_setAll_in _ _ _ h]

theorem State.cell_setObufs_out {i a : Nat} (bs : List Byte)
    (h : a < obufBase + i ∨ obufBase + i + bs.length ≤ a) : (s.setObufs i bs).cell a = s.cell a := by
  simp [State.cell, Memory.get?_setAll_out _ _ _ h]

theorem State.obuf_setObufs_in {i j : Nat} (bs : List Byte) (h : j < bs.length) :
    (s.setObufs i bs).obuf (i + j) = bs[j] := by
  simp [State.obuf, State.cell, ← Nat.add_assoc, Memory.get?_setAll_in _ _ _ h]

/-- Two byte strings of LBUF side by side. -/
theorem State.lbufSpan_succ (a n : Nat) : s.lbufSpan a (n + 1) = s.lbufSpan a n ++ [s.lbuf (a + n)] := by
  simp [State.lbufSpan, List.range_succ]

/-- A shorter byte string of LBUF is a prefix of a longer one. -/
theorem State.lbufSpan_take {a n k : Nat} (h : k ≤ n) : (s.lbufSpan a n).take k = s.lbufSpan a k := by
  apply List.ext_getElem
  · simp [h]
  · intro i h1 h2; simp

end Sys2Proof.Machine
end

