-- ==== Sys2Proof/Laws/Bus.lean ====
section
/-! SUPPORT. The bus: the address map, alignment, packed words, and everything a host read or write can do. -/

namespace Sys2Proof.Machine

/-! ### The address map and alignment (20_memory.md R51, R53) -/

/-- The bounds of LBUF_SIZE (00_scope.md R5). -/
theorem params_wf {p : Params} : p.wf = true ↔ 8 ≤ p.lbufSize ∧ p.lbufSize ≤ 4088 := by simp [Params.wf]

theorem regionOf_regs {a : Nat} (h : a < 0x1000) : regionOf a = .regs := by simp [regionOf]; omega

theorem regionOf_lbuf {a : Nat} (h : 0x1000 ≤ a) (h' : a < 0x2000) : regionOf a = .lbuf := by
  unfold regionOf; rw [if_neg (by omega), if_pos h']

theorem regionOf_obuf {a : Nat} (h : 0x2000 ≤ a) (h' : a < 0x3000) : regionOf a = .obuf := by
  unfold regionOf; rw [if_neg (by omega), if_neg (by omega), if_pos h']

theorem regionOf_reserved {a : Nat} (h : 0x3000 ≤ a) : regionOf a = .reserved := by
  unfold regionOf; rw [if_neg (by omega), if_neg (by omega), if_neg (by omega)]

/-- Offsets from 0x03C on name no register (10_state.md R38). -/
theorem ofOffset_reserved {a : Nat} (h : 0x03C ≤ a) : Reg.ofOffset a = none := by
  unfold Reg.ofOffset
  split <;> first | omega | rfl

/-- CMD stands at offset 0 alone. -/
theorem ofOffset_cmd {a : Nat} (h : Reg.ofOffset a = some .cmd) : a = 0 := by
  unfold Reg.ofOffset at h
  split at h <;> simp_all

theorem widthBytes_le (w : Width) : widthBytes w ≤ 4 := by cases w <;> simp [widthBytes]

/-- The alignment rule (R53) below the reserved range. -/
theorem aligned_iff {a : Nat} {w : Width} (h : a < 0x3000) : aligned a w = true ↔ (a < 0x1000 ∧ w = .w4 ∧
    a % 4 = 0) ∨ (0x1000 ≤ a ∧ a % widthBytes w = 0) := by
  by_cases h1 : a < 0x1000
  · have : ¬ 0x1000 ≤ a := by omega
    simp [aligned, regionOf_regs h1, h1, this]
  · by_cases h2 : a < 0x2000
    · simp [aligned, regionOf_lbuf (Nat.le_of_not_lt h1) h2, h1]; omega
    · simp [aligned, regionOf_obuf (Nat.le_of_not_lt h2) h, h1]; omega

/-- An aligned window access stays inside its window. -/
theorem aligned_in_page {a : Nat} {w : Width} (h : aligned a w = true) (h1 : 0x1000 ≤ a) (h2 : a < 0x3000)
    {k : Nat} (hk : k < widthBytes w) :
    (a < 0x2000 ↔ a + k < 0x2000) ∧ a + k < 0x3000 := by
  rw [aligned_iff h2] at h
  cases w <;> simp [widthBytes] at h hk ⊢ <;> omega

/-! ### Bytes of a bus value (R52) -/

theorem leNat_lt (l : List Byte) : leNat l < 256 ^ l.length := by
  induction l with
  | nil => simp [leNat]
  | cons b l ih =>
    have := b.isLt
    simp only [leNat, List.length_cons, pow_succ]; omega

/-- Byte `k` of a little-endian number. -/
theorem leNat_byte (l : List Byte) (k : Nat) : leNat l / 256 ^ k % 256 = if h : k < l.length then
    (l[k]).toNat else 0 := by
  induction l generalizing k with
  | nil => simp [leNat]
  | cons b l ih =>
    have := b.isLt
    cases k with
    | zero => simp [leNat]; omega
    | succ k =>
      have e : (b.toNat + 256 * leNat l) / 256 ^ (k+1) = leNat l / 256 ^ k := by
        rw [pow_succ', ← Nat.div_div_eq_div_mul]; congr 1; omega
      simp only [leNat, e, ih, List.length_cons, List.getElem_cons_succ]
      by_cases h : k < l.length <;> simp [h]

/-- Byte `k` of the `n` bytes from `a` on, read as one little-endian value. -/
theorem leBytes_byte (f : Nat → Byte) (a n k : Nat) (hn : n ≤ 4) :
    (BitVec.ofNat 32 (leNat ((List.range n).map fun k => f (a + k)))).extractLsb' (8 * k) 8 =
      if n ≤ k then 0 else f (a + k) := by
  rw [← BitVec.toNat_inj]
  simp only [BitVec.extractLsb'_toNat, BitVec.toNat_ofNat, Nat.shiftRight_eq_div_pow]
  have hl := leNat_lt ((List.range n).map fun k => f (a + k))
  simp only [List.length_map, List.length_range] at hl
  have : 256 ^ n ≤ 256 ^ 4 := Nat.pow_le_pow_right (by norm_num) hn
  have h32 : (2:Nat) ^ 32 = 256 ^ 4 := by norm_num
  rw [h32, Nat.mod_eq_of_lt (lt_of_lt_of_le hl this), show 2 ^ (8 * k) = 256 ^ k by rw [pow_mul]; rfl, leNat_byte]
  by_cases h : k < n
  · simp [h, not_le.2 h]
  · simp [h, not_lt.1 h]

/-- Byte `k` of `MemRead(a, n)` is the byte at `a + k`, and 0 from byte `n` on. -/
theorem memRead_byte (s : State) (a n k : Nat) (hn : n ≤ 4) :
    (s.memRead a n).extractLsb' (8 * k) 8 = if n ≤ k then 0 else s.windowByte (a + k) :=
  leBytes_byte s.windowByte a n k hn

/-! ### STATUS (10_state.md R23) -/

theorem statusWord_busy (s : State) : s.statusWord.getLsbD 0 = s.curOp.isSome := by
  simp only [State.statusWord, BitVec.getLsbD_append]; simp [bit]

theorem statusWord_res (s : State) : s.statusWord.extractLsb' 4 4 = s.res.code := by
  ext i hi
  simp only [State.statusWord, BitVec.getElem_extractLsb', BitVec.getLsbD_append]
  interval_cases i <;> simp [BitVec.getLsbD_eq_getElem]

theorem statusWord_err (s : State) : s.statusWord.extractLsb' 8 4 = s.err.code := by
  ext i hi
  simp only [State.statusWord, BitVec.getElem_extractLsb', BitVec.getLsbD_append]
  interval_cases i <;> simp [BitVec.getLsbD_eq_getElem]

theorem statusWord_lrState (s : State) : s.statusWord.extractLsb' 16 2 = s.lrState.code := by
  ext i hi
  simp only [State.statusWord, BitVec.getElem_extractLsb', BitVec.getLsbD_append]
  interval_cases i <;> simp [BitVec.getLsbD_eq_getElem]

theorem statusWord_flags (s : State) : s.statusWord.getLsbD 12 = s.ovr ∧ s.statusWord.getLsbD 13 = s.trunc ∧
    s.statusWord.getLsbD 20 = s.rx.head?.isSome := by
  simp only [State.statusWord, BitVec.getLsbD_append]; simp [bit, State.rxAv]

/-! ### Reads (R54) -/

/-- Idle, with the end of the last command seen, result state is stable (R59). -/
theorem stable_of {s : State} (h : s.curOp = none) (h' : s.unsettled = false) : s.unstable = false := by
  simp [State.unstable, State.busy, h, h']

/-- A read of unstable state on a busy block takes a draw. -/
theorem returnedAny_busy {s : State} (h : s.curOp ≠ none) (v : Word) :
    s.returnedAny v = { s with host := { s.host with rdata := v }, free := s.free + 1 } := by
  obtain ⟨c, h⟩ := Option.ne_none_iff_exists'.1 h
  simp [State.returnedAny, State.returned, h]

/-- One on an idle block takes none. -/
theorem returnedAny_idle {s : State} (h : s.curOp = none) (v : Word) : s.returnedAny v = s.returned v := by
  simp [State.returnedAny, State.returned, h]

/-- Byte `k` of an unspecified window read is the free byte at `a + k`, and 0 from byte `n` on (R52). -/
theorem anyRead_byte (s : State) (a n k : Nat) (hn : n ≤ 4) :
    (s.anyRead a n).extractLsb' (8 * k) 8 = if n ≤ k then 0 else s.anyByte (a + k) := leBytes_byte s.anyByte a n k hn

/-- A read changes the host's copy, the sample counter, the draws, and whether result state is settled alone. -/
theorem busRead_eq (s : State) (a : Nat) (w : Width) : s.busRead a w =
    { s with
      host := { s.host with rdata := (s.busRead a w).host.rdata }
      sinceSample := (s.busRead a w).sinceSample
      unsettled := (s.busRead a w).unsettled
      free := (s.busRead a w).free } := by
  simp only [State.busRead]
  split
  · split
    · rfl
    · split
      · rfl
      · split
        · rfl
        · split <;> rfl
  · split <;> rfl
  · split <;> rfl
  · rfl

/-- STATUS stands at offset 4 alone. -/
theorem ofOffset_status {a : Nat} (h : Reg.ofOffset a = some .status) : a = 4 := by
  unfold Reg.ofOffset at h
  split at h <;> simp_all

/-- What a read does to the settled results: nothing, unless it is a STATUS read that returns BUSY = 0 (R59). -/
theorem busRead_unsettled (s : State) (a : Nat) (w : Width) :
    (s.busRead a w).unsettled = s.unsettled ∨
      (a = 4 ∧ s.curOp = none ∧ (s.busRead a w).unsettled = false) := by
  simp only [State.busRead]
  split
  · split
    · exact .inl rfl
    · rename_i r ho
      split
      · exact .inl rfl
      · split
        · exact .inl rfl
        · split
          · rename_i hr; subst hr
            by_cases hc : s.curOp = none
            · exact .inr ⟨ofOffset_status ho, hc, by simp [hc]⟩
            · obtain ⟨c, hc⟩ := Option.ne_none_iff_exists'.1 hc
              left; simp [hc]
          · exact .inl rfl
  · split <;> exact .inl rfl
  · split <;> exact .inl rfl
  · exact .inl rfl

/-- A read of an idle block takes no draw (R54, log 25). -/
theorem busRead_idle_free {s : State} (h : s.curOp = none) (a : Nat) (w : Width) : (s.busRead a w).free = s.free := by
  simp only [State.busRead]
  split
  · split
    · rfl
    · split
      · rw [returnedAny_idle h]; rfl
      · split
        · rfl
        · split <;> rfl
  · split
    · rw [returnedAny_idle h]; rfl
    · rfl
  · split
    · rw [returnedAny_idle h]; rfl
    · rfl
  · rfl

/-! ### Writes (R37, R42, R51) -/

/-- A register other than CMD written while idle. -/
theorem writeReg_operand {s : State} {r : Reg} (hr : r ≠ .cmd) (hc : s.curOp = none)
    (v : Word) : s.writeReg r v = s.setOperand r v := by
  cases r <;> simp at hr <;> simp [State.writeReg, hc]

/-- CMD written while idle. -/
theorem writeReg_cmd {s : State} (hc : s.curOp = none) (v : Word) : s.writeReg .cmd v = s.accept v := by
  simp [State.writeReg, hc]

/-- Everything a host write can do. -/
structure WriteFrame (s t : State) : Prop where
  params : t.params = s.params
  rx : t.rx = s.rx
  now : t.now = s.now
  ramDraw : t.ramDraw = s.ramDraw
  host : t.host = s.host
  env : t.env = s.env
  busy : s.busy = true → t = { s with ovr := t.ovr }
  cell : ∀ b, t.cell b ≠ s.cell b → lbufBase ≤ b ∧ b < lbufBase + s.params.lbufSize

theorem WriteFrame.of_mem {s t : State} (h : t.mem = s.mem) (h1 : t.params = s.params) (h2 : t.rx = s.rx)
    (h3 : t.now = s.now)
    (h4 : t.ramDraw = s.ramDraw) (h5 : t.host = s.host) (h6 : t.env = s.env) (h7 : s.busy = true → t = { s with ovr := t.ovr }) : WriteFrame s t :=
  ⟨h1, h2, h3, h4, h5, h6, h7, fun b hb => absurd (State.cell_congr h h4 b) hb⟩

/-- Nothing is written. -/
theorem WriteFrame.refl (s : State) : WriteFrame s s := .of_mem rfl rfl rfl rfl rfl rfl rfl fun _ => rfl

theorem accept_frame {s : State} (hb : ¬ s.busy = true) (v : Word) : WriteFrame s (s.accept v) := by
  unfold State.accept
  split <;> exact .of_mem rfl rfl rfl rfl rfl rfl rfl fun e => absurd e hb

theorem setOperand_frame {s : State} (hb : ¬ s.busy = true) (r : Reg) (v : Word) : WriteFrame s
    (s.setOperand r v) := by
  unfold State.setOperand
  split <;> exact .of_mem rfl rfl rfl rfl rfl rfl rfl fun e => absurd e hb

theorem writeReg_frame (s : State) (r : Reg) (v : Word) : WriteFrame s (s.writeReg r v) := by
  unfold State.writeReg
  split <;> split
  · exact .of_mem rfl rfl rfl rfl rfl rfl rfl fun _ => rfl
  · rename_i hb; exact accept_frame hb v
  · exact .refl s
  · rename_i hb; exact setOperand_frame hb _ v

theorem memWrite_frame {s : State} (hb : ¬ s.busy = true) (a : Nat) (v : Word) (n : Nat) : WriteFrame s
    (s.memWrite a v n) := by
  have h : s.memWrite a v n = { s with mem := (s.memWrite a v n).mem } ∧ ∀ b,
      (s.memWrite a v n).cell b ≠ s.cell b → lbufBase ≤ b ∧ b < lbufBase + s.params.lbufSize := by
    induction n with
    | zero => exact ⟨rfl, fun b h => absurd rfl h⟩
    | succ n ih =>
      obtain ⟨h1, h2⟩ := ih
      have hp : (s.memWrite a v n).params = s.params := by rw [h1]
      rw [State.memWrite]
      unfold State.writeLane
      split
      · rename_i hin
        rw [hp] at hin
        refine ⟨by rw [h1]; rfl, fun b h => ?_⟩
        by_cases hx : b = a + n
        · subst hx; exact hin
        · rw [State.cell_setLbuf_ne _ _ (by omega)] at h; exact h2 b h
      · exact ⟨h1, h2⟩
  obtain ⟨h1, h2⟩ := h
  refine ⟨?_, ?_, ?_, ?_, ?_, ?_, fun e => absurd e hb, h2⟩ <;> rw [h1]

@[simp] theorem memWrite_unsettled (s : State) (a : Nat) (v : Word) (n : Nat) :
    (s.memWrite a v n).unsettled = s.unsettled := by
  induction n with
  | zero => rfl
  | succ n ih => rw [State.memWrite]; unfold State.writeLane; split <;> exact ih

/-- The only write that unsettles results is an accepted one of CMD (R59). -/
theorem busWrite_unsettled {s : State} {a : Nat} {w : Width} {v : Word} (h0 : s.unsettled = false)
    (h : (s.busWrite a w v).unsettled = true) : a = 0 ∧ s.curOp = none ∧ regionOf a = .regs := by
  unfold State.busWrite at h
  split at h
  · rename_i hreg
    split at h
    · simp [h0] at h
    · rename_i r ho
      unfold State.writeReg at h
      split at h
      · split at h
        · simp [h0] at h
        · rename_i hb; exact ⟨ofOffset_cmd ho, by simpa using hb, hreg⟩
      · split at h
        · simp [h0] at h
        · unfold State.setOperand at h; split at h <;> simp [h0] at h
  · split at h <;> simp [h0] at h
  · simp [h0] at h
  · simp [h0] at h

/-- Everything a host write can do. -/
theorem busWrite_frame (s : State) (a : Nat) (w : Width) (v : Word) : WriteFrame s (s.busWrite a w v) := by
  unfold State.busWrite
  split
  · split
    · exact .refl s
    · exact writeReg_frame s _ v
  · split
    · exact .refl s
    · rename_i hb; exact memWrite_frame hb _ _ _
  · exact .refl s
  · exact .refl s

end Sys2Proof.Machine
end

