-- ==== Sys2Proof/Laws/Crc.lean ====
section
/-! SUPPORT. The CRC step is linear over GF(2), and a register below 256 goes through eight turns of the loop as a
byte shift (40_crc.md R103, R104). -/

namespace Sys2Proof.Machine

/-- One turn of the loop of R103 is linear over GF(2). -/
theorem crcBit_xor (a b : Half) : crcBit (a ^^^ b) = crcBit a ^^^ crcBit b := by
  unfold crcBit
  simp only [BitVec.getLsbD_xor, BitVec.shiftLeft_xor_distrib]
  cases a.getLsbD 15 <;> cases b.getLsbD 15 <;> simp
  · rw [← BitVec.xor_assoc]
  · ac_rfl
  · rw [show a <<< 1 ^^^ 4129#16 ^^^ (b <<< 1 ^^^ 4129#16) = a <<< 1 ^^^ b <<< 1 ^^^ (4129#16 ^^^ 4129#16) by ac_rfl]; simp

/-- The loop is linear. -/
theorem crcBits_xor (n : Nat) (a b : Half) : crcBits n (a ^^^ b) = crcBits n a ^^^ crcBits n b := by
  induction n generalizing a b with
  | zero => rfl
  | succ n ih => simp [crcBits, crcBit_xor, ih]

/-- The byte step is linear in the register and the byte together. -/
theorem crcStep_xor (a b : Half) (x y : Byte) : crcStep (a ^^^ b) (x ^^^ y) = crcStep a x ^^^ crcStep b y := by
  simp only [crcStep, ← crcBits_xor]
  congr 1
  simp only [BitVec.setWidth_xor, BitVec.shiftLeft_xor_distrib]
  ac_rfl

/-- The loop is a byte shift on a register below 256: no set bit stands at bit 15 at the head of any
of the eight turns. -/
theorem crcBits_low (c : Half) (h : c.toNat < 256) : crcBits 8 c = c <<< 8 := by
  have : ∀ b : Byte, crcBits 8 (b.setWidth 16) = (b.setWidth 16 : Half) <<< 8 := by decide
  have hc : c = (c.setWidth 8).setWidth 16 := by
    rw [← BitVec.toNat_inj]; simp; omega
  rw [hc]; exact this _

/-- A zero byte leaves a zero register 0. -/
theorem crcStep_zero : crcStep 0#16 0#8 = 0#16 := by decide

end Sys2Proof.Machine
end

