-- ==== Sys2Proof/Laws/Decode.lean ====
section
/-! SUPPORT. The decoder's tests as arithmetic on the word. -/

namespace Sys2Proof

theorem reservedClear_iff (w : Word) :
    reservedClear w = true ↔ w.toNat / 16 % 16 = 0 ∧ w.toNat / 512 = 0 := by
  have := w.isLt
  simp only [reservedClear, Bool.and_eq_true, beq_iff_eq, ← BitVec.toNat_inj, BitVec.extractLsb'_toNat,
    Nat.shiftRight_eq_div_pow, BitVec.toNat_ofNat]
  omega

theorem opcOf_toNat (w : Word) : (opcOf w).toNat = w.toNat % 16 := by simp [opcOf]

theorem varOf_toNat (w : Word) : (varOf w).toNat = w.toNat / 256 % 2 := by
  simp [varOf, Nat.shiftRight_eq_div_pow]

/-- A word is refused exactly when it is not read as a command. -/
theorem decodeWord_error_iff (w : Word) : (∃ r, decodeWord w = .error r) ↔ ¬ ∃ i, decodeWord w = .ok i := by
  cases h : decodeWord w <;> simp

/-- A word that reads as READLINE is READLINE's word. -/
theorem word_of_decode_readline {w : Word} (h : decodeWord w = .ok .readline) : w = encode .readline := by
  unfold decodeWord at h
  split at h
  · rename_i hr
    rw [reservedClear_iff] at hr
    rw [← BitVec.toNat_inj]
    split at h <;> simp at h
    rename_i h1 h2
    rw [opcOf_toNat] at h1
    rw [varOf_toNat] at h2
    change _ = 2
    omega
  · simp at h

end Sys2Proof
end

