-- ==== Sys2Proof/Laws/FrameCodec.lean ====
section
/-! SUPPORT. The frame codec: the last comma, the run of digits, numerals, decimal rendering, and the suffix
decoder on a line split at its last comma. -/

namespace Sys2Proof.Machine

/-! ### The last comma (42_frame_codec.md R150) -/

theorem lastComma_none_iff (l : List Byte) : lastComma l = none ↔ chComma ∉ l := by
  induction l with
  | nil => simp [lastComma]
  | cons b l ih =>
    rw [lastComma]
    cases h : lastComma l with
    | some k => simp [h] at ih ⊢; tauto
    | none =>
      have := ih.1 h
      by_cases e : b = chComma <;> simp [e, this, eq_comm]

theorem lastComma_append_comma (p r : List Byte) (h : chComma ∉ r) :
    lastComma (p ++ chComma :: r) = some p.length := by
  induction p with
  | nil => simp [lastComma, (lastComma_none_iff r).2 h]
  | cons b p ih => simp [lastComma, ih]

theorem lastComma_split {l : List Byte} {k : Nat} (h : lastComma l = some k) :
    ∃ p r, l = p ++ chComma :: r ∧ p.length = k ∧ chComma ∉ r := by
  induction l generalizing k with
  | nil => simp [lastComma] at h
  | cons b l ih =>
    rw [lastComma] at h
    cases h' : lastComma l with
    | some j =>
      obtain ⟨p, r, rfl, rfl, hr⟩ := ih h'
      rw [h'] at h
      exact ⟨b :: p, r, rfl, by simpa using h, hr⟩
    | none =>
      rw [h'] at h
      simp only [ite_eq_iff] at h
      rcases h with ⟨rfl, h⟩ | ⟨_, h⟩
      · exact ⟨[], l, rfl, by simpa using h, (lastComma_none_iff l).1 h'⟩
      · simp at h

theorem lastComma_lt {l : List Byte} {k : Nat} (h : lastComma l = some k) : k < l.length := by
  obtain ⟨p, r, rfl, rfl, _⟩ := lastComma_split h
  simp
/-! ### Digits and numerals (R151, R153) -/

theorem isDigit_iff (b : Byte) : isDigit b = true ↔ 0x30 ≤ b.toNat ∧ b.toNat ≤ 0x39 := by simp [isDigit]

theorem digitRun_append (d r : List Byte) (hd : ∀ b ∈ d, isDigit b = true) (hr : ∀ b, r.head? = some b →
    isDigit b = false) :
    digitRun (d ++ r) = d := by
  induction d with
  | nil => cases r with
    | nil => rfl
    | cons b r => simp [digitRun, hr b rfl]
  | cons b d ih =>
    simp only [List.forall_mem_cons] at hd
    simp [digitRun, hd.1, ih hd.2]

@[simp] theorem numeral_nil (v : Nat) : numeral v [] = v := rfl

@[simp] theorem numeral_cons (v : Nat) (b : Byte) (l : List Byte) : numeral v (b :: l) = numeral (10 * v + digitValue b) l := by
  unfold numeral; exact List.foldl_cons ..

theorem numeral_append (v : Nat) (a b : List Byte) : numeral v (a ++ b) = numeral (numeral v a) b := by
  simp [numeral]

theorem numeral_eq (v : Nat) (d : List Byte) : numeral v d = v * 10 ^ d.length + spelled d := by
  induction d generalizing v with
  | nil => simp [spelled]
  | cons b d ih =>
    rw [numeral_cons, ih]
    simp only [spelled, List.map_cons, List.reverse_cons, Nat.ofDigits_append, List.length_reverse,
        List.length_map, Nat.ofDigits_singleton, List.length_cons, pow_succ, digitValue]
    ring

theorem chComma_not_digit : isDigit chComma = false := by decide

theorem comma_notMem_digits {d : List Byte} (hd : ∀ b ∈ d, isDigit b = true) : chComma ∉ d := by
  intro h; have := hd _ h; rw [chComma_not_digit] at this; cases this

theorem decodeSuffix_split (tr : CksumTrailing) (p d r : List Byte) (hr : chComma ∉ r)
    (hd : ∀ b ∈ d, isDigit b = true)
    (hh : ∀ b, r.head? = some b → isDigit b = false) :
    decodeSuffix tr (p ++ [chComma] ++ d ++ r) =
      if d = [] ∨ (tr = .reject ∧ r ≠ []) then .notFound true p.length else .found p.length (numeral 0 d) := by
  have hl : lastComma (p ++ [chComma] ++ d ++ r) = some p.length := by
    have := lastComma_append_comma p (d ++ r) (by simp [hr, comma_notMem_digits hd])
    simpa using this
  have hdrop : (p ++ [chComma] ++ d ++ r).drop (p.length + 1) = d ++ r := by simp
  unfold decodeSuffix
  rw [hl]
  simp only [hdrop, digitRun_append d r hd hh]
  cases d <;> cases r <;> simp
/-! ### Decimal rendering (R156) -/

theorem digitChar_toNat {d : Nat} (h : d < 10) : (digitChar d).toNat = 0x30 + d := by
  simp [digitChar]; omega

theorem decDigits_spec (n v : Nat) (h : v < 10 ^ (n+1)) : 
    (∀ b ∈ decDigits (n+1) v, isDigit b = true) ∧ numeral 0 (decDigits (n+1) v) = v ∧
    1 ≤ (decDigits (n+1) v).length ∧ (decDigits (n+1) v).length ≤ n + 1 ∧
    ((decDigits (n+1) v).head? = some 0x30 → v = 0) := by
  induction n generalizing v with
  | zero =>
    have hv : v < 10 := by simpa using h
    rw [decDigits, if_pos hv]
    have := digitChar_toNat hv
    refine ⟨?_, ?_, by simp, by simp, ?_⟩
    · simp [isDigit_iff, this]; omega
    · rw [numeral_cons, numeral_nil, digitValue, this]; omega
    · intro e
      have : digitChar v = 0x30 := by simpa using e
      have h0 := digitChar_toNat hv; rw [this] at h0; simp at h0; omega
  | succ n ih =>
    rw [decDigits]
    split
    · rename_i hv
      have := digitChar_toNat hv
      refine ⟨?_, ?_, by simp, by simp, ?_⟩
      · simp [isDigit_iff, this]; omega
      · rw [numeral_cons, numeral_nil, digitValue, this]; omega
      · intro e
        have : digitChar v = 0x30 := by simpa using e
        have h0 := digitChar_toNat hv; rw [this] at h0; simp at h0; omega
    · rename_i hv
      have hlt : v / 10 < 10 ^ (n+1) := by rw [Nat.div_lt_iff_lt_mul (by norm_num)]; rw [pow_succ] at h; exact h
      obtain ⟨h1, h2, h3, h4, h5⟩ := ih (v / 10) hlt
      have hm : v % 10 < 10 := Nat.mod_lt _ (by norm_num)
      have hc := digitChar_toNat hm
      refine ⟨?_, ?_, by simp, by simp; omega, ?_⟩
      · intro b hb
        rcases List.mem_append.1 hb with hb | hb
        · exact h1 b hb
        · rw [List.mem_singleton.1 hb, isDigit_iff, hc]; omega
      · rw [numeral_append, h2]; rw [numeral_cons, numeral_nil, digitValue, hc]; omega
      · intro e
        rw [List.head?_append_of_ne_nil _ (by intro e; rw [e] at h3; simp at h3)] at e
        have := h5 e
        omega

theorem dec_digits (v : Half) : ∀ b ∈ dec v, isDigit b = true := (decDigits_spec 4 v.toNat
    (by have := v.isLt; omega)).1

theorem numeral_dec (v : Half) : numeral 0 (dec v) = v.toNat := (decDigits_spec 4 v.toNat
    (by have := v.isLt; omega)).2.1

theorem dec_length (v : Half) : 1 ≤ (dec v).length ∧ (dec v).length ≤ 5 := by
  have := decDigits_spec 4 v.toNat (by have := v.isLt; omega)
  exact ⟨this.2.2.1, this.2.2.2.1⟩

/-! ### Frames (R170, R172) -/

theorem frame_length (p : List Byte) (t : Byte) :
    (frame p t).length = p.length + (dec (crc16Xmodem p)).length + 2 := by
  simp [frame]; omega

theorem frame_length_bounds (p : List Byte) (t : Byte) :
    p.length + 3 ≤ (frame p t).length ∧ (frame p t).length ≤ p.length + 7 := by
  have := dec_length (crc16Xmodem p)
  rw [frame_length]; omega

/-- The suffix of a frame without its terminator is the payload's checksum. -/

theorem decodeSuffix_frame (tr : CksumTrailing) (p : List Byte) (v : Half) :
    decodeSuffix tr (p ++ [chComma] ++ dec v) = .found p.length v.toNat := by
  have h := decodeSuffix_split tr p (dec v) [] (by simp) (dec_digits v) (by simp)
  have hne : dec v ≠ [] := by
    intro e
    have := (dec_length v).1
    rw [e] at this
    simp at this
  simpa [hne, numeral_dec] using h

/-- The offset of a suffix lies inside the line. -/

theorem decodeSuffix_found_lt {tr : CksumTrailing} {l : List Byte} {k v : Nat}
    (h : decodeSuffix tr l = .found k v) : lastComma l = some k ∧ k < l.length := by
  unfold decodeSuffix at h
  cases hl : lastComma l with
  | none => simp [hl] at h
  | some j =>
    rw [hl] at h
    simp only at h
    split at h
    · simp at h
    · split at h
      · simp at h
      · simp only [Suffix.found.injEq] at h
        obtain ⟨rfl, _⟩ := h
        exact ⟨rfl, lastComma_lt hl⟩

/-- With no comma found, the offset answered is 0; a comma's offset lies inside the line. -/

theorem decodeSuffix_notFound {tr : CksumTrailing} {l : List Byte} {f : Bool} {k : Nat}
    (h : decodeSuffix tr l = .notFound f k) : f = false → k = 0 := by
  unfold decodeSuffix at h
  cases hl : lastComma l with
  | none => simp [hl] at h; simp [h]
  | some j =>
    rw [hl] at h
    simp only at h
    split at h
    · simp at h; simp [← h.1]
    · split at h
      · simp at h; simp [← h.1]
      · simp at h

end Sys2Proof.Machine
end

