-- ==== Sys2Proof/Laws/Host.lean ====
section
/-! SUPPORT. The host: runs of host steps, single script lines on an idle block, and everything a host step or
a call can do. -/

namespace Sys2Proof.Machine

/-- Two runs one after the other. -/
theorem hostRun_add (m n : Nat) (s t : State) (h : hostRun m s = .next t) : hostRun (m + n) s = hostRun n t := by
  induction m generalizing s with
  | zero => simp [hostRun] at h; simp [h]
  | succ m ih =>
    rw [Nat.add_right_comm, hostRun]
    rw [hostRun] at h
    cases hs : hostStep s with
    | next u => simp only [hs] at h ⊢; exact ih u h
    | fault r => simp [hs] at h
    | refused r => simp [hs] at h

/-- One step, then the rest. -/
theorem hostRun_step {s t : State} (h : hostStep s = .next t) (n : Nat) : hostRun (n + 1) s = hostRun n t := by
  rw [hostRun, h]

theorem lbufAddr_toNat {i : Nat} (h : i < 0x1000) : (BitVec.ofNat 14 (lbufBase + i)).toNat = lbufBase + i := by
  simp [lbufBase]; omega

theorem obufAddr_toNat {i : Nat} (h : i < 0x1000) : (BitVec.ofNat 14 (obufBase + i)).toNat = obufBase + i := by
  simp [obufBase]; omega

/-- The script line `wr REG, v`. -/
theorem hostStep_wr {s : State} {r : Reg} {v : Word} {rest : List ScriptOp}
    (hs : s.host.script = opWr r v :: rest) :
    hostStep s = .next ({ s with host := { s.host with script := rest } }.writeReg r v) := by
  simp only [hostStep, hs, opWr, busAccess]
  cases r <;> rfl

/-- `wrb LBUF[i], b` on an idle block. -/
theorem hostStep_wrb {s : State} {i : Nat} {b : Byte} {rest : List ScriptOp} (hp : s.params.wf = true)
    (hc : s.curOp = none)
    (hi : i < s.params.lbufSize) (hs : s.host.script = opWrb i b :: rest) :
    hostStep s = .next { s with mem := s.mem.set (lbufBase + i) b, host := { s.host with script := rest } } := by
  have hw := params_wf.1 hp
  have ha := lbufAddr_toNat (i := i) (by omega)
  have hr : regionOf (lbufBase + i) = .lbuf := regionOf_lbuf (by simp [lbufBase]) (by simp [lbufBase]; omega)
  have hb : (BitVec.setWidth 32 b).extractLsb' (8 * 0) 8 = b := by rw [← BitVec.toNat_inj]; simp; have := b.isLt; omega
  simp only [hostStep, hs, opWrb, busAccess, ha, aligned, hr, widthBytes, State.busWrite, State.memWrite,
      State.writeLane]
  rw [hb]; simp [hc, hi, State.setLbuf, Nat.mod_one]

/-- `rd REG` on an idle block: a result register's once the results are settled; STATUS settles them (R59). -/
theorem hostStep_rd_idle {s : State} {r : Reg} {rest : List ScriptOp} (hc : s.curOp = none) (hr : r ≠ .now)
    (hu : r.isResult = true → s.unsettled = false)
    (hs : s.host.script = opRd r :: rest) :
    hostStep s = .next { s with
      host := { s.host with script := rest, rdata := s.regValue r },
      unsettled := if r = .status then false else s.unsettled } := by
  simp only [hostStep, hs, opRd, busAccess]
  cases r <;> simp [Reg.isResult] at hr hu <;> simp [Reg.offset, aligned, regionOf, State.busRead, Reg.ofOffset, hc, Reg.isResult,
      State.returned, State.unstable, State.statusRead, hu] <;> first | rfl | (simp [State.regValue, State.statusWord, State.rxAv, hc])

/-- `rdb LBUF[i]` on an idle block. -/
theorem hostStep_rdbLbuf {s : State} {i : Nat} {rest : List ScriptOp} (hp : s.params.wf = true)
    (hc : s.curOp = none) (hu : s.unsettled = false)
    (hi : i < s.params.lbufSize) (hs : s.host.script = opRdbLbuf i :: rest) :
    hostStep s = .next { s with host := { s.host with script := rest, rdata := (s.lbuf i).setWidth 32 } } := by
  have hw := params_wf.1 hp
  have ha := lbufAddr_toNat (i := i) (by omega)
  have hr : regionOf (lbufBase + i) = .lbuf := regionOf_lbuf (by simp [lbufBase]) (by simp [lbufBase]; omega)
  have hwb : ∀ t : State, t.params = s.params → t.mem = s.mem → t.ramDraw = s.ramDraw → t.memRead (lbufBase + i) 1 = (s.lbuf i).setWidth 32 := by
    intro t h1 h2 h3
    have : t.windowByte (lbufBase + i) = s.lbuf i := by
      unfold State.windowByte
      rw [h1, if_pos (by omega)]
      exact State.cell_congr h2 h3 _
    rw [State.memRead, ← BitVec.toNat_inj]
    have := (s.lbuf i).isLt
    simp [leNat, *]
  simp only [hostStep, hs, opRdbLbuf, busAccess, ha, aligned, hr, widthBytes, State.busRead]
  rw [hwb { s with host := { s.host with script := rest } } rfl rfl rfl]
  simp [hc, hu, State.unstable, State.returned, Nat.mod_one]

/-- `rdb OBUF[i]` on an idle block. -/
theorem hostStep_rdbObuf {s : State} {i : Nat} {rest : List ScriptOp} (hp : s.params.wf = true)
    (hc : s.curOp = none) (hu : s.unsettled = false)
    (hi : i < s.params.obufSize) (hs : s.host.script = opRdbObuf i :: rest) :
    hostStep s = .next { s with host := { s.host with script := rest, rdata := (s.obuf i).setWidth 32 } } := by
  have hw := params_wf.1 hp
  have hO : s.params.obufSize = s.params.lbufSize + 7 := rfl
  have ha := obufAddr_toNat (i := i) (by omega)
  have hr : regionOf (obufBase + i) = .obuf := regionOf_obuf (by simp [obufBase]) (by simp [obufBase]; omega)
  have hwb : ∀ t : State, t.params = s.params → t.mem = s.mem → t.ramDraw = s.ramDraw → t.memRead (obufBase + i) 1 = (s.obuf i).setWidth 32 := by
    intro t h1 h2 h3
    have : t.windowByte (obufBase + i) = s.obuf i := by
      unfold State.windowByte
      rw [h1, if_neg (by simp only [lbufBase, obufBase]; omega), if_pos (by omega)]
      exact State.cell_congr h2 h3 _
    rw [State.memRead, ← BitVec.toNat_inj]
    have := (s.obuf i).isLt
    simp [leNat, *]
  simp only [hostStep, hs, opRdbObuf, busAccess, ha, aligned, hr, widthBytes, State.busRead]
  rw [hwb { s with host := { s.host with script := rest } } rfl rfl rfl]
  simp [hc, hu, State.unstable, State.returned, Nat.mod_one]

/-- Everything a host step can be. -/
theorem hostStep_cases {s t : State} (h : hostStep s = .next t) :
    (∃ a ops, s.host.script = .acc a :: ops ∧ busAccess { s with host := { s.host with script := ops } } a = .next t) ∨
    (∃ ops f, s.host.script = .wait :: ops ∧ t = { s.busRead Reg.status.offset.toNat .w4 with host := f }) ∨
    (s.host.script = [] ∧ ∃ f, t = { s with host := f }) := by
  unfold hostStep at h
  split at h
  · rename_i a rest hs; exact .inl ⟨a, rest, hs, h⟩
  · rename_i rest hs
    injection h with h
    refine .inr (.inl ⟨rest, t.host, hs, ?_⟩)
    subst h
    simp only [State.waited]
    split <;> rfl
  · rename_i hs
    injection h with h
    refine .inr (.inr ⟨hs, t.host, ?_⟩)
    subst h
    unfold State.procStep
    cases s.host.proc <;> simp only <;> (try rfl)
    · split <;> rfl
    · split <;> rfl
    · rename_i p n l; cases l with
      | zero => simp only [State.prefixFilter]; split <;> rfl
      | succ n => rfl
    · split <;> rfl
    · split <;> rfl
    · split <;> rfl
    · split <;> rfl

/-- A call that starts changes the host alone. -/
theorem startCall_cases {s t : State} {c : Call} (h : startCall s c = .next t) :
    ∃ f, t = { s with host := f } := by
  refine ⟨t.host, ?_⟩
  unfold startCall at h
  split at h
  · cases h
  · split at h
    · split at h <;> (injection h with h; subst h; rfl)
    · injection h with h; subst h; rfl
    · split at h
      · cases h
      · injection h with h; subst h; rfl
    · injection h with h; subst h; rfl

/-- Everything a host step can do. -/
theorem hostStep_frame {s t : State} (h : hostStep s = .next t) :
    ∃ f u, WriteFrame { s with host := f } u ∧
      t = { u with
        host := t.host, sinceSample := t.sinceSample, unsettled := t.unsettled, free := t.free } := by
  rcases hostStep_cases h with ⟨a, ops, _, hb⟩ | ⟨ops, f, _, rfl⟩ | ⟨_, f, rfl⟩
  · cases a <;> simp only [busAccess] at hb <;> split at hb
    · injection hb with hb; subst hb
      refine ⟨_, _, .refl { s with host := { s.host with script := ops } }, ?_⟩
      rw [busRead_eq]
    · cases hb
    · injection hb with hb; subst hb
      exact ⟨_, _, busWrite_frame _ _ _ _, rfl⟩
    · cases hb
  · refine ⟨s.host, s, .refl s, ?_⟩
    rw [busRead_eq]
  · exact ⟨s.host, s, .refl s, rfl⟩

end Sys2Proof.Machine
end

