-- ==== Sys2Proof/Laws/LineReader.lean ====
section
/-! SUPPORT. The line assembler: what one poll iteration does, case by case, and how a READLINE run unfolds. -/

namespace Sys2Proof.Machine

/-- A started READLINE makes one poll iteration (log 6). -/
theorem execReadline_started {s : State} (h : s.lrState ≠ .idle) : exec .readline s = .next s.poll := by
  simp [exec, execReadline, h]

/-- A READLINE that starts makes its first iteration at length 0. -/
theorem execReadline_start {s : State} (h : s.lrState = .idle) (h1 : 1 ≤ s.size.toNat)
    (h2 : s.size.toNat ≤ s.params.lbufSize) :
    exec .readline s = .next ({ s with lrState := .accumulating, lrLen := 0 } : State).poll := by
  have : s.sizeOutOfRange = false := by simp [State.sizeOutOfRange]; omega
  simp [exec, execReadline, h, this]

/-- No CR exit with the port empty or an LF presented, and the grace window open. -/
theorem crExits_false {s : State} (h : s.lrState = .crPending → (s.rx.head? = none ∨ s.rx.head? = some chLF) ∧
    s.graceOver = false) : s.crExits = false := by
  simp only [State.crExits]
  by_cases e : s.lrState = .crPending
  · obtain ⟨h1, h2⟩ := h e
    rcases h1 with h1 | h1 <;> simp [h1, h2]
  · simp [e]

/-- Outer deadline first (R123). -/
theorem poll_late {s : State} (h : s.deadlineReached = true) : s.poll = s.sampled.timedOut := by
  have : s.sampled.deadlineReached = true := h
  simp [State.poll, State.pollChecks, this]

/-- Then the CR exit (R124). -/
theorem poll_crExit {s : State} (h : s.deadlineReached = false)
    (h' : s.crExits = true) : s.poll = s.sampled.crExit := by
  have h : s.sampled.deadlineReached = false := h
  have h' : s.sampled.crExits = true := h'
  simp [State.poll, State.pollChecks, h, h']

/-- Then an empty port (R131). -/
theorem poll_empty {s : State} (h : s.deadlineReached = false) (h' : s.crExits = false)
    (hr : s.rx = []) : s.poll = s.sampled := by
  have h : s.sampled.deadlineReached = false := h
  have h' : s.sampled.crExits = false := h'
  simp [State.poll, State.pollChecks, h, h', hr]

/-- Then the presented byte is consumed (R125). -/
theorem poll_consume {s : State} {c : Byte} {r : List Byte} (h : s.deadlineReached = false)
    (h' : s.crExits = false) (hr : s.rx = c :: r) :
    s.poll = ({ s with rx := r, sinceSample := some 0 } : State).consume c := by
  have h : s.sampled.deadlineReached = false := h
  have h' : s.sampled.crExits = false := h'
  simp [State.poll, State.pollChecks, h, h', hr]
  simp [State.sampled, State.rxPop, hr]

/-- What `done()` leaves (R129). -/
theorem lineDone_post (s : State) : s.lineDone.res = .line ∧ s.lineDone.curOp = none ∧
    s.lineDone.lrState = .idle ∧ s.lineDone.len = s.lrLen ∧
    s.lineDone.lbufSpan 0 s.lrLen.toNat = s.lbufSpan 0 s.lrLen.toNat ∧ s.lineDone.lbuf s.lrLen.toNat = 0x00 ∧ s.lineDone.rx = s.rx := by
  refine ⟨rfl, rfl, rfl, rfl, ?_, State.lbuf_setLbuf_same s _ _, rfl⟩
  apply State.lbufSpan_congr; intro i hi
  rw [Nat.zero_add]; exact State.lbuf_setLbuf_ne s chNUL (by omega)

/-- A run of a started READLINE, one poll at a time. -/
theorem readlineRun_cons {s : State} (h : s.lrState ≠ .idle) (x : Poll) (xs : List Poll) :
    readlineRun (x :: xs) s = if (s.meets x).poll.lrState = .idle then (s.meets x).poll else readlineRun xs (s.meets x).poll := by
  rw [readlineRun, execReadline_started (by exact h)]

/-- The run ends at this poll. -/
theorem readlineRun_end {s u : State} {x : Poll} {xs : List Poll} (h : s.lrState ≠ .idle) (hp :
    (s.meets x).poll = u) (hu : u.lrState = .idle) : readlineRun (x :: xs) s = u := by
  rw [readlineRun_cons h, hp, if_pos hu]

/-- The run goes on after this poll. -/
theorem readlineRun_go {s u : State} {x : Poll} {xs : List Poll} (h : s.lrState ≠ .idle) (hp :
    (s.meets x).poll = u) (hu : u.lrState ≠ .idle) : readlineRun (x :: xs) s = readlineRun xs u := by
  rw [readlineRun_cons h, hp, if_neg hu]

theorem arrivals_cons (x : Poll) (xs : List Poll) : arrivals (x :: xs) = x.2 ++ arrivals xs := rfl

@[simp] theorem takenFrom_nil (n : Nat) : takenFrom n [] = 0 := rfl

/-- A poll that finds the port empty takes nothing. -/
theorem takenFrom_empty {n : Nat} {x : Poll} (h : n + x.2.length = 0) (xs : List Poll) :
    takenFrom n (x :: xs) = takenFrom 0 xs := by rw [takenFrom, if_pos h]

/-- A poll that is presented a byte takes one. -/
theorem takenFrom_byte {n : Nat} {x : Poll} (h : n + x.2.length ≠ 0) (xs : List Poll) :
    takenFrom n (x :: xs) = takenFrom (n + x.2.length - 1) xs + 1 := by rw [takenFrom, if_neg h]

theorem isData_iff {b : Byte} : isData b = true ↔ b ≠ chCR ∧ b ≠ chLF := by simp [isData]

end Sys2Proof.Machine
end

