-- ==== Sys2Proof/Laws/PerInstr.lean ====
section
/-! SUPPORT. Statements made for every command, one lemma a constructor. -/

namespace Sys2Proof.Laws.WordRoundTrip

/-- The command is well formed, and its word, numbered as the opcode table numbers its 32 bits, reads back as
the command (30_encoding.md R73). -/
def Statement (i : Sys2Proof.Instr) : Prop :=
  i.wf = true ∧ Sys2Proof.decodeTableWord 32 (Sys2Proof.encode i).toNat = some i

theorem crcx : Statement .crcx := by unfold Statement; decide
theorem crcc : Statement .crcc := by unfold Statement; decide
theorem readline : Statement .readline := by unfold Statement; decide
theorem decode : Statement .decode := by unfold Statement; decide
theorem verify : Statement .verify := by unfold Statement; decide
theorem encode : Statement .encode := by unfold Statement; decide

end Sys2Proof.Laws.WordRoundTrip
end

