-- ==== Sys2Proof/Laws/Step.lean ====
section
/-! SUPPORT. The step: what no block step changes, and everything a step can be. -/

namespace Sys2Proof.Machine

/-- What no block step changes. -/
structure BlockFrame (s t : State) : Prop where
  params : t.params = s.params
  size : t.size = s.size
  t0 : t.t0 = s.t0
  tmo : t.tmo = s.tmo
  aOff : t.aOff = s.aOff
  aCnt : t.aCnt = s.aCnt
  term : t.term = s.term
  ovr : t.ovr = s.ovr
  now : t.now = s.now
  ramDraw : t.ramDraw = s.ramDraw
  host : t.host = s.host
  env : t.env = s.env
  curOp : t.curOp = s.curOp ∨ t.curOp = none
  rx : t.rx = s.rx ∨ ∃ b, s.rx = b :: t.rx

/-- What no poll iteration changes. -/
theorem poll_frame (s : State) : BlockFrame s s.poll := by
  unfold State.poll State.pollChecks
  split
  · exact ⟨rfl, rfl, rfl, rfl, rfl, rfl, rfl, rfl, rfl, rfl, rfl, rfl, .inr rfl, .inl rfl⟩
  · split
    · unfold State.crExit
      split
      · exact ⟨rfl, rfl, rfl, rfl, rfl, rfl, rfl, rfl, rfl, rfl, rfl, rfl, .inr rfl, .inl rfl⟩
      · exact ⟨rfl, rfl, rfl, rfl, rfl, rfl, rfl, rfl, rfl, rfl, rfl, rfl, .inl rfl, .inl rfl⟩
    · split
      · exact ⟨rfl, rfl, rfl, rfl, rfl, rfl, rfl, rfl, rfl, rfl, rfl, rfl, .inl rfl, .inl rfl⟩
      · rename_i c hc
        have hrx : s.rx = c :: s.rx.tail := by
          cases h : s.rx <;> simp [State.rxHead, State.sampled, h] at hc ⊢
          exact hc
        unfold State.consume
        split
        · exact ⟨rfl, rfl, rfl, rfl, rfl, rfl, rfl, rfl, rfl, rfl, rfl, rfl, .inl rfl, .inr ⟨c, hrx⟩⟩
        · split
          · split
            · exact ⟨rfl, rfl, rfl, rfl, rfl, rfl, rfl, rfl, rfl, rfl, rfl, rfl, .inr rfl, .inr ⟨c, hrx⟩⟩
            · exact ⟨rfl, rfl, rfl, rfl, rfl, rfl, rfl, rfl, rfl, rfl, rfl, rfl, .inl rfl, .inr ⟨c, hrx⟩⟩
          · split
            · exact ⟨rfl, rfl, rfl, rfl, rfl, rfl, rfl, rfl, rfl, rfl, rfl, rfl, .inl rfl, .inr ⟨c, hrx⟩⟩
            · exact ⟨rfl, rfl, rfl, rfl, rfl, rfl, rfl, rfl, rfl, rfl, rfl, rfl, .inl rfl, .inr ⟨c, hrx⟩⟩

/-- What no command changes; only READLINE touches the port. -/
theorem exec_frame {i : Instr} {s t : State} (h : exec i s = .next t) :
    BlockFrame s t ∧ (i ≠ .readline → t.rx = s.rx) := by
  have done {t : State}
      (ht : t = { s with
        res := t.res, err := t.err, lrState := t.lrState, curOp := none, crc := t.crc, commaF := t.commaF,
        commaIdx := t.commaIdx, cksumVal := t.cksumVal, cksumOvf := t.cksumOvf, len := t.len, mem := t.mem,
        olen := t.olen }) :
      BlockFrame s t ∧ (i ≠ .readline → t.rx = s.rx) := by
    rw [ht]; exact ⟨⟨rfl, rfl, rfl, rfl, rfl, rfl, rfl, rfl, rfl, rfl, rfl, rfl, .inr rfl, .inl rfl⟩, fun _ => rfl⟩
  cases i with
  | crcx => injection h with h; subst h; unfold State.crcCommand; split <;> exact done rfl
  | crcc => injection h with h; subst h; unfold State.crcCommand; split <;> exact done rfl
  | readline =>
    simp only [exec, execReadline] at h
    split at h
    · split at h
      · injection h with h; subst h; exact done rfl
      · injection h with h; subst h
        obtain ⟨a, b, c, d, e, f, g, i, j, k, l, m, n, o⟩ :=
          poll_frame { s with lrState := .accumulating, lrLen := 0 }
        exact ⟨⟨a, b, c, d, e, f, g, i, j, k, l, m, n, o⟩, fun e => absurd rfl e⟩
    · injection h with h; subst h; exact ⟨poll_frame s, fun e => absurd rfl e⟩
  | decode =>
    simp only [exec, execDecode] at h
    split at h
    · injection h with h; subst h; exact done rfl
    · split at h <;> (injection h with h; subst h; exact done rfl)
  | verify =>
    simp only [exec, execVerify] at h
    split at h
    · injection h with h; subst h; exact done rfl
    · split at h
      · injection h with h; subst h; exact done rfl
      · split at h <;> (injection h with h; subst h; exact done rfl)
  | encode =>
    simp only [exec, execEncode] at h
    split at h
    · injection h with h; subst h; exact done rfl
    · injection h with h; subst h; exact done rfl

/-- What no block step changes; an idle block does nothing. -/
theorem blockStep_frame {s t : State} (h : blockStep s = .next t) :
    BlockFrame s t ∧ (s.curOp = none → t = s) ∧ (t.rx = s.rx ∨ s.curOp = some 0x00000002#32) := by
  unfold blockStep at h
  split at h
  · injection h with h; subst h
    exact ⟨⟨rfl, rfl, rfl, rfl, rfl, rfl, rfl, rfl, rfl, rfl, rfl, rfl, .inl rfl, .inl rfl⟩, fun _ => rfl,
        .inl rfl⟩
  · rename_i w hw
    simp only [State.fetch_eq] at hw
    split at h
    · rename_i i hi
      obtain ⟨h1, h2⟩ := exec_frame h
      refine ⟨h1, fun e => (by rw [hw] at e; cases e), ?_⟩
      by_cases hr : i = .readline
      · subst hr; right; rw [hw, word_of_decode_readline hi]; rfl
      · exact .inl (h2 hr)
    · injection h with h; subst h
      exact ⟨⟨rfl, rfl, rfl, rfl, rfl, rfl, rfl, rfl, rfl, rfl, rfl, rfl, .inr rfl, .inl rfl⟩,
          fun e => (by rw [hw] at e; cases e), .inl rfl⟩

/-- No command changes whether results are settled (R59). -/
theorem exec_unsettled {i : Instr} {s t : State} (h : exec i s = .next t) : t.unsettled = s.unsettled := by
  have hp (s : State) : s.poll.unsettled = s.unsettled := by
    unfold State.poll State.pollChecks
    split
    · rfl
    · split
      · unfold State.crExit; split <;> rfl
      · split
        · rfl
        · unfold State.consume; split_ifs <;> rfl
  cases i <;>
    simp only [exec, execCrcx, execCrcc, execReadline, execDecode, execVerify, execEncode, State.crcCommand] at h <;>
    split_ifs at h <;>
    first
    | (split at h <;> first
        | (injection h with h; subst h; rfl)
        | (split_ifs at h <;> injection h with h <;> subst h <;> rfl))
    | (injection h with h; subst h; first | rfl | exact hp _)

/-- Nor does a block step. -/
theorem blockStep_unsettled {s t : State} (h : blockStep s = .next t) : t.unsettled = s.unsettled := by
  unfold blockStep at h
  split at h
  · injection h with h; rw [h]
  · split at h
    · exact exec_unsettled h
    · injection h with h; subst h; rfl

/-- What a clock step changes. -/
theorem clockTick_cases {s t : State} {d : Word} (h : clockTick s d = .next t) : t =
    { s with now := s.now + d, sinceSample := t.sinceSample } := by
  unfold clockTick at h
  split at h
  · injection h with h; subst h; rfl
  · split at h
    · injection h with h; subst h; rfl
    · cases h

/-- Everything a step can be. -/
theorem step_cases {s t : State} (h : step s = .next t) :
    (s.env = [] ∧ blockStep s = .next t) ∨
    ∃ e rest, s.env = e :: rest ∧ eventStep { s with env := rest } e = .next t := by
  unfold step at h
  split at h
  · rename_i he; exact .inl ⟨he, h⟩
  · rename_i e rest he; exact .inr ⟨e, rest, he, h⟩

end Sys2Proof.Machine
end

