-- ==== Sys2Proof/Tests/Slice0.lean ====
section
/-! SUPPORT. Small tests of the model, with expected values from spec/95_test_vectors.md and the rules, and a
witness for the hypotheses of every statement that has some. -/

namespace Sys2Proof.Tests

open Sys2Proof Sys2Proof.Machine

/-! ### Helpers -/

/-- One field of the state an outcome leads to. -/
def after {α : Type} (o : Host.Outcome State Fault Refusal) (f : State → α) : Option α :=
  match o with
  | .next s => some (f s)
  | .fault _ => none
  | .refused _ => none

/-- The reset state with a line in LBUF, LEN its length, and its length as the CRC span. -/
def loaded (bs : List Byte) : State :=
  { State.reset with
    mem := Memory.setAll [] lbufBase bs
    len := BitVec.ofNat 16 bs.length
    aCnt := BitVec.ofNat 16 bs.length }

/-- The reset state with a command latched. -/
def running (i : Instr) (s : State) : State := { s with curOp := some (encode i), unsettled := true }

/-- A block with the smallest LBUF and its eight bytes loaded: `ab,12345`. -/
def full : State :=
  { State.resetWith { Params.default with lbufSize := 8 } with
    mem := Memory.setAll [] lbufBase [0x61, 0x62, 0x2C, 0x31, 0x32, 0x33, 0x34, 0x35]
    len := 8 }

/-- READLINE accepted with the given capacity, a deadline far off, and bytes at the port. -/
def reading (size : Half) (rx : List Byte) : State :=
  { running .readline State.reset with size := size, tmo := 1000, rx := rx }

/-- `"123456789"` -/
def digits9 : List Byte := [0x31, 0x32, 0x33, 0x34, 0x35, 0x36, 0x37, 0x38, 0x39]

/-- `"AB,22139"`, a frame without its terminator (42_frame_codec.md R165's example). -/
def abFrame : List Byte := [0x41, 0x42, 0x2C, 0x32, 0x32, 0x31, 0x33, 0x39]

/-! ### Command words, written out from 30_encoding.md R71 -/

theorem test_word_crcx : decodeWord 0b0000000000000000000000000000_0001 = .ok .crcx := by decide
theorem test_word_crcc : decodeWord 0b0000000000000000000000010000_0001 = .ok .crcc := by decide
theorem test_word_readline : decodeWord 0b0000000000000000000000000000_0010 = .ok .readline := by decide
theorem test_word_decode : decodeWord 0b0000000000000000000000000000_0011 = .ok .decode := by decide
theorem test_word_verify : decodeWord 0b0000000000000000000000000000_0100 = .ok .verify := by decide
theorem test_word_encode : decodeWord 0b0000000000000000000000000000_0101 = .ok .encode := by decide
theorem test_word_zero : decodeWord 0 = .error .opcode := by decide
theorem test_word_var : decodeWord 0x00000103 = .error .variant := by decide
theorem test_word_reserved_low : decodeWord 0x00000011 = .error .reservedBit := by decide
theorem test_word_reserved_high : decodeWord 0x00000201 = .error .reservedBit := by decide

/-! ### WellFormed -/

theorem test_params_small : ({ Params.default with lbufSize := 7 } : Params).wf = false := by decide
theorem test_params_smallest : ({ Params.default with lbufSize := 8 } : Params).wf = true := by decide
theorem test_params_largest : ({ Params.default with lbufSize := 4088 } : Params).wf = true := by decide
theorem test_params_large : ({ Params.default with lbufSize := 4089 } : Params).wf = false := by decide
theorem test_every_command_wf : ∀ i ∈ [Instr.crcx, .crcc, .readline, .decode, .verify, .encode], i.wf = true := by
  decide

/-! ### One step of each command -/

/-- 95_test_vectors.md L1-2. -/
theorem test_crcx : after (step ((loaded digits9).withFetchWord 32 0x00000001)) (·.crc) = some 0x31C3 := by decide +kernel

/-- 60_exceptions.md R201: a span of 257 bytes. -/
theorem test_crcx_range :
    after (exec .crcx { running .crcx State.reset with aOff := 0xFFFF, aCnt := 1 }) (·.err) = some .range := by
  decide

/-- 95_test_vectors.md L1-2. -/
theorem test_crcc : after (step ((loaded digits9).withFetchWord 32 0x00000101)) (·.crc) = some 0x29B1 := by decide +kernel

/-- 40_crc.md R102: the empty span. -/
theorem test_crcc_empty : after (exec .crcc (running .crcc State.reset)) (·.crc) = some 0xFFFF := by decide

/-- 41_line_reader.md R126: a data byte. -/
theorem test_readline_byte :
    after (step ({ reading 16 [0x41] with curOp := none }.withFetchWord 32 0x00000002))
      (fun s => (s.lrState, s.lrLen, s.lbuf 0, s.rx)) = some (.accumulating, 1, 0x41, []) := by decide

/-- 41_line_reader.md R123: the deadline comes before the LF that is presented. -/
theorem test_readline_timeout :
    after (exec .readline { reading 16 [0x0A] with lrState := .accumulating, lrLen := 2, now := 1001 })
      (fun s => (s.res, s.lrState, s.rx)) = some (.timeout, .idle, [0x0A]) := by decide

/-- 42_frame_codec.md R160: `"a,99999"`. -/
theorem test_decode :
    after (step ((loaded [0x61, 0x2C, 0x39, 0x39, 0x39, 0x39, 0x39]).withFetchWord 32 0x00000003))
      (fun s => (s.res, s.commaIdx, s.cksumVal, s.cksumOvf)) = some (.found, 1, 34463, true) := by decide

/-- 42_frame_codec.md R160: a line that is only a comma. -/
theorem test_decode_comma :
    after (exec .decode (loaded [0x2C])) (fun s => (s.res, s.commaF, s.commaIdx)) = some (.notFound, true, 0) := by
  decide

/-- 42_frame_codec.md R165's example. -/
theorem test_verify :
    after (step ((loaded abFrame).withFetchWord 32 0x00000004))
      (fun s => (s.res, s.crc, s.len, s.lbuf 1, s.lbuf 2, s.lbuf 3)) =
      some (.valid, 0x567B, 2, 0x42, 0x00, 0x32) := by decide +kernel

/-- 95_test_vectors.md L1-4: `"a,b,12345"`. -/
theorem test_verify_mismatch :
    after (exec .verify (loaded [0x61, 0x2C, 0x62, 0x2C, 0x31, 0x32, 0x33, 0x34, 0x35]))
      (fun s => (s.res, s.crc, s.len, s.commaIdx, s.lbuf 3)) = some (.mismatch, 0xA334, 9, 3, 0x2C) := by decide +kernel

/-- 42_frame_codec.md R170's example: `"CMD=1"` gives `"CMD=1,15478\n"`. -/
theorem test_encode :
    after (step ((loaded [0x43, 0x4D, 0x44, 0x3D, 0x31]).withFetchWord 32 0x00000005))
      (fun s => (s.crc, s.olen, s.obufSpan 12)) =
      some (0x3C76, 12, [0x43, 0x4D, 0x44, 0x3D, 0x31, 0x2C, 0x31, 0x35, 0x34, 0x37, 0x38, 0x0A]) := by decide +kernel

/-- 42_frame_codec.md R170: the empty payload. -/
theorem test_encode_empty :
    after (exec .encode (loaded [])) (fun s => (s.crc, s.olen, s.obufSpan 3)) = some (0, 3, [0x2C, 0x30, 0x0A]) := by
  decide

/-! ### The bus -/

/-- 20_memory.md R52: a 4-byte read at 0x1000 is `LBUF[3], LBUF[2], LBUF[1], LBUF[0]`. -/
theorem test_window_read :
    after (busAccess (loaded abFrame) (.read 0x1000 .w4)) (·.host.rdata) = some 0x322C4241 := by decide

/-- 20_memory.md R53. -/
theorem test_misaligned :
    busAccess State.reset (.read 0x1001 .w2) = .fault (.hostAccess (.read 0x1001 .w2)) := rfl

/-- 10_state.md R23, R37: STATUS right after an illegal CMD write is 0x100. -/
theorem test_status_illegal :
    after (busAccess State.reset (.write 0x000 .w4 0)) (·.statusWord) = some 0x00000100 := by decide

/-- 20_memory.md R59: the result of CRCX is unspecified to the host until it reads STATUS with BUSY = 0. -/
theorem test_results_settle :
    after (step ((loaded digits9).withFetchWord 32 0x00000001)) (·.unstable) = some true ∧
    after (step ((loaded digits9).withFetchWord 32 0x00000001))
      (fun s => ((s.busRead 0x004 .w4).unstable, ((s.busRead 0x004 .w4).busRead 0x020 .w4).host.rdata)) =
      some (false, 0x31C3) := by decide +kernel

/-- 70_reset_and_hazards.md R220: STATUS is 0 after reset. -/
theorem test_status_reset : State.reset.statusWord = 0 := by decide

/-! ### Witnesses: a state and operands that meet the hypotheses of each statement -/

/-- StepRunsTheLatchedCommand: a latched word with the schedule empty and with the block next; an idle block. -/
theorem witness_step :
    (running .crcx State.reset).curOp = some 1 ∧ decodeWord 1 = .ok .crcx ∧ (running .crcx State.reset).env = [] ∧
    ({ running .crcx State.reset with env := [.block] } : State).env = .block :: [] ∧
    State.reset.curOp = none ∧ State.reset.env = [] ∧
    ({ State.reset with env := [.block] } : State).env = .block :: [] := by decide

/-- LegalCommandIsLatched, IllegalCommandRaisesIllegal, CommandWhileBusyIsDropped. -/
theorem witness_cmd_writes :
    State.reset.curOp = none ∧ decodeWord 0x00000101 = .ok .crcc ∧
    (∀ i ∈ [Instr.crcx, .crcc, .readline, .decode, .verify, .encode], decodeWord 0x00000102 ≠ .ok i) ∧
    (running .encode State.reset).curOp ≠ none := by decide

/-- CrcCommandsComplete: a span that ends at LBUF_SIZE, and one byte more. -/
theorem witness_crc_span :
    ({ State.reset with aOff := 255, aCnt := 1 } : State).aOff.toNat + 1 ≤ State.reset.params.lbufSize ∧
    State.reset.params.lbufSize < ({ State.reset with aOff := 256, aCnt := 1 } : State).aOff.toNat + 1 := by decide

/-- CrcLaws: the two seeds, and strings of equal length. -/
theorem witness_crc_laws :
    ((0x0000 : Half) = 0x0000 ∨ (0x0000 : Half) = 0xFFFF) ∧ ((0xFFFF : Half) = 0x0000 ∨ (0xFFFF : Half) = 0xFFFF) ∧
    digits9.length = digits9.length := by decide

/-- The message polynomial of a byte string. -/
noncomputable def messagePolynomial : List Byte → Polynomial (ZMod 2)
  | [] => 0
  | b :: s =>
    (∑ i ∈ Finset.range 8, if b.getLsbD i then Polynomial.X ^ i else 0) * Polynomial.X ^ (8 * s.length)
      + messagePolynomial s

/-- CrcIsRemainderByGenerator: there is a message polynomial. -/
theorem witness_crc_polynomial :
    messagePolynomial [] = 0 ∧ ∀ (b : Byte) (s : List Byte),
      messagePolynomial (b :: s) =
        (∑ i ∈ Finset.range 8, if b.getLsbD i then Polynomial.X ^ i else 0) * Polynomial.X ^ (8 * s.length)
          + messagePolynomial s :=
  ⟨by rw [messagePolynomial], fun b s => by rw [messagePolynomial]⟩

/-- SuffixDecoding: no comma; digits `0` and `9` with a byte after them; no digits. -/
theorem witness_suffix :
    (0x2C : Byte) ∉ digits9 ∧ (0x2C : Byte) ∉ ([0x3A] : List Byte) ∧
    (∀ b ∈ ([0x30, 0x39] : List Byte), 0x30 ≤ b.toNat ∧ b.toNat ≤ 0x39) ∧
    (∀ b, ([0x3A] : List Byte).head? = some b → ¬ (0x30 ≤ b.toNat ∧ b.toNat ≤ 0x39)) := by
  refine ⟨by decide, by decide, by decide, ?_⟩
  rintro b hb; cases hb; decide

/-- DecimalRenderingIsShortest: another spelling, `007` for 7. -/
theorem witness_spelling :
    ([0x30, 0x30, 0x37] : List Byte) ≠ [] ∧
    (∀ b ∈ ([0x30, 0x30, 0x37] : List Byte), 0x30 ≤ b.toNat ∧ b.toNat ≤ 0x39) ∧
    spelled [0x30, 0x30, 0x37] = (7 : Half).toNat ∧ (dec 0).head? = some 0x30 := by
  refine ⟨by decide, by decide, ?_, by decide⟩
  simp [spelled, Nat.ofDigits]

/-- DecodeCompletes and VerifyCompletes: a line that fills LBUF, with and without a suffix, and one byte more. -/
theorem witness_lines :
    full.len.toNat ≤ full.params.lbufSize ∧
    decodeSuffix full.params.cksumTrailing (full.lbufSpan 0 full.len.toNat) = .found 2 12345 ∧
    12345 ≠ (crc16 0x0000 (full.lbufSpan 0 2)).toNat ∧
    decodeSuffix .ignore ((loaded digits9).lbufSpan 0 (loaded digits9).len.toNat) = .notFound false 0 ∧
    full.params.lbufSize < ({ full with len := 9 } : State).len.toNat := by decide +kernel

/-- VerifyCompletes on VALID, StoringCommandsChangeOnlyTheirBytes for VERIFY. -/
theorem witness_valid :
    (loaded abFrame).len.toNat ≤ (loaded abFrame).params.lbufSize ∧
    decodeSuffix (loaded abFrame).params.cksumTrailing ((loaded abFrame).lbufSpan 0 (loaded abFrame).len.toNat) =
      .found 2 22139 ∧
    22139 = (crc16 0x0000 ((loaded abFrame).lbufSpan 0 2)).toNat ∧
    after (exec .verify (loaded abFrame)) (·.res) = some .valid := by decide +kernel

/-- EncodeCompletes and StoringCommandsChangeOnlyTheirBytes for ENCODE: a payload that fills LBUF. -/
theorem witness_encode :
    full.params.wf = true ∧ full.len.toNat ≤ full.params.lbufSize ∧
    after (exec .encode full) (·.res) = some .done := by decide +kernel

/-- VerifyOfEncodeGivesThePayload: a payload of one byte in the smallest LBUF, and the frame it gives. -/
theorem witness_round_trip :
    let s : State := { full with len := 1 }
    let t := exec .encode s
    let u : State := { full with
      mem := Memory.setAll [] lbufBase [0x61, 0x2C, 0x33, 0x31, 0x38, 0x37, 0x39], len := 7 }
    s.params.wf = true ∧ s.len.toNat + 7 ≤ s.params.lbufSize ∧ u.params = s.params ∧
    after t (fun t => decide (u.len.toNat = t.olen.toNat - 1)) = some true ∧
    after t (fun t => decide (∀ i, i < u.len.toNat → u.lbuf i = t.obuf i)) = some true := by decide +kernel

/-- CommandsThatStoreNothingKeepMemory: each of its commands answers, VERIFY with a result other than VALID. -/
theorem witness_frames :
    after (exec .crcx full) (·.res) = some .done ∧ after (exec .crcc full) (·.res) = some .done ∧
    after (exec .decode full) (·.res) = some .found ∧ after (exec .verify full) (·.res) = some .mismatch := by decide +kernel

/-- OnlyReadlineUsesPortAndClock. -/
theorem witness_other_commands : ∀ i ∈ [Instr.crcx, .crcc, .decode, .verify, .encode], i ≠ .readline := by decide

/-- ReadlineStartChecksSize: SIZE 0 and 257 out of range, 1 and 256 in range. -/
theorem witness_size :
    (reading 0 []).lrState = .idle ∧ (reading 0 []).size.toNat = 0 ∧
    (reading 0 []).params.lbufSize < (reading 257 []).size.toNat ∧
    1 ≤ (reading 1 []).size.toNat ∧ (reading 256 []).size.toNat ≤ (reading 256 []).params.lbufSize := by decide

/-- ReadlineTimesOutAtTheDeadline: the first sample past TMO under GT, and the one at TMO under GE. -/
theorem witness_late :
    ({ reading 16 [] with lrState := .crPending } : State).lrState ≠ .idle ∧
    expired .gt ((1001 : Word) - 0) 1000 = true ∧ expired .ge ((1000 : Word) - 0) 1000 = true := by decide

/-- ReadlineCrExit: a byte other than LF; the grace window over, with an LF at the port; both policies. -/
theorem witness_cr_exit :
    let s : State := { reading 16 [0x41] with lrState := .crPending, lrLen := 2 }
    let u : State := { reading 16 [0x0A] with
      lrState := .crPending, now := 51, params := { Params.default with crBlank := .suppress } }
    s.lrState = .crPending ∧ expired s.params.deadlineCmp (s.now - s.t0) s.tmo = false ∧
    (s.rx.head? = some 0x41 ∧ (0x41 : Byte) ≠ 0x0A) ∧ (0 < s.lrLen.toNat ∨ s.params.crBlank = .surface) ∧
    u.lrState = .crPending ∧ expired u.params.deadlineCmp (u.now - u.t0) u.tmo = false ∧
    expired u.params.deadlineCmp (u.now - u.crTime) 50 = true ∧ u.lrLen = 0 ∧ u.params.crBlank = .suppress := by
  decide

/-- ReadlineWaitsAtAnEmptyPort: at the last millisecond of the grace window. -/
theorem witness_waiting :
    let s : State := { reading 16 [] with lrState := .crPending, lrLen := 2, now := 50 }
    s.lrState ≠ .idle ∧ s.rx = [] ∧ expired s.params.deadlineCmp (s.now - s.t0) s.tmo = false ∧
    (s.lrState = .crPending → expired s.params.deadlineCmp (s.now - s.crTime) 50 = false) := by decide

/-- ReadlineConsumesOneByte: CR, LF at length 0, LF in CR_PENDING at length 2, a data byte with the last room
and one with none. -/
theorem witness_consumed :
    let s (st : LrState) (n : Half) (c : Byte) : State := { reading 4 [c, 0x41] with lrState := st, lrLen := n }
    (s .accumulating 0 0x0D).rx = 0x0D :: [0x41] ∧ (s .accumulating 0 0x0D).lrState = .accumulating ∧
    expired (s .accumulating 0 0x0D).params.deadlineCmp (0 - 0) 1000 = false ∧
    (s .accumulating 0 0x0A).lrLen = 0 ∧
    ((s .crPending 2 0x0A).lrState = .crPending ∧ expired .gt ((0 : Word) - 0) 50 = false ∧
      0 < (s .crPending 2 0x0A).lrLen.toNat) ∧
    (s .accumulating 2 0x42).lrLen.toNat < (s .accumulating 2 0x42).size.toNat - 1 ∧
    ¬ (s .accumulating 3 0x42).lrLen.toNat < (s .accumulating 3 0x42).size.toNat - 1 := by decide

/-- ReadlineWritesOnlyItsLine: not started, and started with the line full. -/
theorem witness_reader_frame :
    (reading 1 []).lrState = .idle ∧
    ({ reading 1 [] with lrState := .accumulating } : State).lrLen.toNat < (reading 1 []).size.toNat ∧
    after (exec .readline (reading 1 [0x41])) (·.trunc) = some true := by decide

/-- The hypothesis ReadyToRead of the statements about whole READLINE commands. -/
theorem witness_ready : (reading 4 [0x41, 0x42, 0x0A]).ReadyToRead :=
  ⟨rfl, by decide, rfl, rfl, by decide, by decide⟩

/-- LineIsTheConsumedData: `"AB\n"` (95_test_vectors.md L1-3), and a line with a dropped byte. -/
theorem witness_line :
    (readlineRun [(0, []), (0, []), (0, [])] (reading 4 [0x41, 0x42, 0x0A])).res = .line ∧
    (readlineRun [(0, []), (0, []), (0, [])] (reading 2 [0x41, 0x42, 0x0A])).trunc = true := by decide

/-- LineFeedEndsTheLine: `"A"` at the port, `"B\n"` and one more byte after a poll at an empty port; a capacity with
no room to spare, and the last millisecond before the deadline. -/
theorem witness_lf :
    let s : State := reading 3 [0x41]
    let xs : List Poll := [(999, []), (999, []), (1000, [0x42]), (1000, [0x0A, 0x43])]
    (∀ b ∈ ([0x41, 0x42] : List Byte), isData b = true) ∧ ([0x41, 0x42] : List Byte).length < s.size.toNat ∧
    s.takesAt xs 2 3 ∧ s.rx ++ arrivals (xs.take 4) = [0x41, 0x42] ++ 0x0A :: [0x43] ∧
    (∀ x ∈ xs.take 4, expired s.params.deadlineCmp (x.1 - s.t0) s.tmo = false) := by decide

/-- `"AB\r"` at the port, and a poll at an empty port after the CR. -/
theorem witness_pause (last : Poll) :
    (reading 4 [0x41, 0x42, 0x0D]).PausesAfterCr [0x41, 0x42] [(100, []), (101, []), (102, []), (150, []), last]
      2 4 (102, []) where
  takesCr := ⟨rfl, rfl⟩
  sample := rfl
  later := by decide
  pause := by
    intro k z h1 h2 h3
    obtain rfl : k = 3 := by omega
    cases h3
    exact ⟨rfl, rfl⟩

/-- CrLfEndsTheLineOnce: the LF at the last millisecond of the grace window. -/
theorem witness_crlf :
    let s : State := reading 4 [0x41, 0x42, 0x0D]
    let xs : List Poll := [(100, []), (101, []), (102, []), (150, []), (152, [0x0A, 0x43])]
    s.PausesAfterCr [0x41, 0x42] xs 2 4 (102, []) ∧ xs[4]? = some (152, [0x0A, 0x43]) ∧
    s.rx ++ arrivals (xs.take 5) = [0x41, 0x42] ++ 0x0D :: 0x0A :: [0x43] ∧
    (∀ x ∈ xs.take 5, expired s.params.deadlineCmp (x.1 - s.t0) s.tmo = false) ∧
    expired s.params.deadlineCmp ((152 : Word) - 102) 50 = false :=
  ⟨witness_pause _, rfl, by decide, by decide, by decide⟩

/-- BareCrEndsTheLine: no byte until 51 ms after the CR (L1-3), an LF that comes then, and a byte other than LF. -/
theorem witness_cr :
    let s : State := reading 4 [0x41, 0x42, 0x0D]
    let xs (last : Poll) : List Poll := [(100, []), (101, []), (102, []), (150, []), last]
    (∀ last, s.PausesAfterCr [0x41, 0x42] (xs last) 2 4 (102, [])) ∧
    s.rx ++ arrivals ((xs (153, [])).take 5) = [0x41, 0x42] ++ 0x0D :: [] ∧
    s.rx ++ arrivals ((xs (153, [0x0A])).take 5) = [0x41, 0x42] ++ 0x0D :: [0x0A] ∧
    s.rx ++ arrivals ((xs (151, [0x43])).take 5) = [0x41, 0x42] ++ 0x0D :: [0x43] ∧
    expired s.params.deadlineCmp ((153 : Word) - 102) 50 = true ∧ (0x43 : Byte) ≠ 0x0A :=
  ⟨witness_pause, by decide, by decide, by decide, by decide, by decide⟩

/-- ReadlineEndsByTheDeadline. -/
theorem witness_deadline :
    ∃ x ∈ ([(1001, [])] : List Poll), expired .gt (x.1 - (reading 4 []).t0) (reading 4 []).tmo = true := by decide

/-- ReceivedFrameVerifies: the empty payload's frame `",0"` with LF, with CR and a byte, and with CR alone; all but
its first byte arrive later. -/
theorem witness_received :
    let s : State := reading 3 [0x2C]
    let xs (c : Byte) (last : Poll) : List Poll := [(0, []), (0, [0x30, c]), (0, []), last]
    frame [] 0x0A = [0x2C, 0x30, 0x0A] ∧ frame [] 0x0D = [0x2C, 0x30, 0x0D] ∧
    (frame [] 0x0A).length ≤ s.size.toNat ∧ s.params.wf = true ∧ 0 + 7 ≤ s.params.lbufSize ∧
    s.takesAt (xs 0x0A (0, [])) (frame [] 0x0A).dropLast.length 2 ∧
    s.rx ++ arrivals ((xs 0x0A (0, [])).take 3) = frame [] 0x0A ++ [] ∧
    (∀ last, s.PausesAfterCr (frame [] 0x0D).dropLast (xs 0x0D last) 2 3 (0, [])) ∧
    s.rx ++ arrivals ((xs 0x0D (0, [0x41])).take 4) = frame [] 0x0D ++ [0x41] ∧ ([0x41] : List Byte) ≠ [] ∧
    s.rx ++ arrivals ((xs 0x0D (51, [])).take 4) = frame [] 0x0D ++ [] ∧
    expired s.params.deadlineCmp ((51 : Word) - 0) 50 = true ∧
    (∀ x ∈ xs 0x0D (51, []), expired s.params.deadlineCmp (x.1 - s.t0) s.tmo = false) := by
  refine ⟨by decide, by decide, by decide, by decide, by decide, by decide, by decide, fun last => ?_, by decide,
    by decide, by decide, by decide, by decide⟩
  exact ⟨⟨rfl, rfl⟩, rfl, by decide, fun k z h1 h2 => by omega⟩

/-- IgnoredAndReservedAccesses, MisalignedAccessesFault, WindowReadsAreLittleEndian,
WindowWritesAreLittleEndian: aligned and misaligned addresses at the ends of each range. -/
theorem witness_addresses :
    aligned 0x03C .w4 = true ∧ aligned 0xFFC .w4 = true ∧ aligned 0x2000 .w1 = true ∧ aligned 0x3FFF .w4 = true ∧
    aligned 0x038 .w4 = true ∧ aligned 0x1000 .w4 = true ∧ aligned 0x1FFC .w4 = true ∧ aligned 0x2FFE .w2 = true ∧
    aligned 0x000 .w2 = false ∧ aligned 0x002 .w4 = false ∧ aligned 0x1FFF .w2 = false ∧
    aligned 0x2FFE .w4 = false ∧ State.reset.curOp = none ∧ State.reset.unsettled = false ∧ State.reset.params.wf = true := by decide

/-- WritesWhileBusyAreIgnored, ReadsWhileBusy (while busy, after a command that no STATUS read has followed, and the
CMD write that unsettles results), OperandsAreFrozenWhileBusy. -/
theorem witness_busy :
    (running .readline State.reset).curOp ≠ none ∧
    after (step ((loaded abFrame).withFetchWord 32 4)) (fun s => (s.curOp, s.unsettled)) = some (none, true) ∧
    after (step { State.reset with
      env := [.host], host := { HostAgent.quiet with script := [opCmd .decode] } }) (·.unsettled) = some true ∧
    (0x008 : BitVec 14) ≠ 0x000 ∧
    aligned (0x008 : BitVec 14).toNat .w4 = true ∧ aligned (0x014 : BitVec 14).toNat .w4 = true ∧
    aligned (0x2FFF : BitVec 14).toNat .w1 = true ∧
    after (step { running .verify (loaded abFrame) with env := [.block] }) (fun t => (t.len, t.curOp)) =
      some (2, none) ∧
    after (step { running .readline State.reset with env := [.arrive [0x41]] }) (·.rx) = some [0x41] ∧
    ({ running .readline State.reset with env := [.arrive [0x41]] } : State).env.head? ≠ some .rst := by decide +kernel

/-- ResetInputGivesResetValues: in the middle of a READLINE. -/
theorem witness_rst :
    ({ reading 4 [0x41] with lrState := .crPending, env := [.rst] } : State).env = .rst :: [] := by decide

/-- ResetStateMeetsInvariant and StepKeepsInvariant: legal parameters, and a step from a state that meets the
invariant (ResetStateMeetsInvariant) to one that differs from it. -/
theorem witness_invariant :
    ({ Params.default with lbufSize := 8 } : Params).wf = true ∧
    after (step { State.reset with env := [.tick 5] }) (·.now) = some 5 := by decide

/-- ClockAdvances: before the first sample, below the bound and at it. -/
theorem witness_clock :
    State.reset.sinceSample = none ∧ 0 + (0x7FFFFFFF : Word).toNat < 2 ^ 31 ∧
    2 ^ 31 ≤ 1 + (0x7FFFFFFF : Word).toNat ∧
    ({ State.reset with env := [.tick 5], sinceSample := some 1 } : State).sinceSample = some 1 := by decide

/-- OnlyReadlinePopsThePort: a step that pops, one at which a byte arrives. -/
theorem witness_port :
    after (step (reading 4 [0x41, 0x42])) (·.rx) = some [0x42] ∧
    after (step { reading 4 [0x41] with env := [.arrive [0x42]] }) (·.rx) = some [0x41, 0x42] := by decide

/-- BufferBytesChangeOnlyByTheirWriters: VERIFY changes a byte; so does a host write. -/
theorem witness_byte_changes :
    (loaded abFrame).cell 0x1002 = 0x2C ∧
    after (step ((loaded abFrame).withFetchWord 32 4)) (·.cell 0x1002) = some 0x00 ∧
    after (step { loaded abFrame with
      env := [.host], host := { HostAgent.quiet with script := [opWrb 2 0x41] } }) (·.cell 0x1002) = some 0x41 := by
  decide +kernel

/-- OnlyMisalignedHostAccessesFault: a step that faults. -/
theorem witness_fault :
    step { State.reset with
      env := [.host], host := { HostAgent.quiet with script := [.acc (.write 0x000 .w1 1)] } } =
      .fault (.hostAccess (.write 0x000 .w1 1)) := rfl

/-- NoCommandIsRefused: the three refusals there are. -/
theorem witness_refusals :
    step { State.reset with env := [.tick 1], sinceSample := some (2 ^ 31 - 1) } = .refused .clockJump ∧
    step { State.reset with
      env := [.call (.waitUntilAvailable 0)], host := { HostAgent.quiet with script := [.wait] } } =
      .refused .procedureRunning ∧
    step { full with env := [.call (.sendData digits9)] } = .refused .payloadTooLong := ⟨rfl, rfl, rfl⟩

/-- ReadsHaveNoSideEffect: a read, and an idle block that the world moves on around, its clock, port and host. -/
theorem witness_read :
    let u : State := { State.reset with now := 5, sinceSample := some 5, rx := [0x41] }
    after (busAccess State.reset (.read 0x02C .w4)) (·.host.rdata) = some 0x0A ∧ State.reset.curOp = none ∧
    u = { State.reset with
      rx := u.rx, now := u.now, sinceSample := u.sinceSample, host := u.host, env := u.env } := by decide

/-- 20_memory.md R54: on the idle block a read of an unsettled result takes no draw, so the next one sees the same. -/
theorem test_idle_reads_keep_their_draw :
    after (step ((loaded abFrame).withFetchWord 32 4)) (fun s =>
      (s.unstable, decide ((s.busRead 0x014 .w4).free = s.free))) = some (true, true) := by decide +kernel

/-- LoadStoresTheString: eight bytes in the smallest LBUF. -/
theorem witness_load :
    let s : State := { full with host := { HostAgent.quiet with script := opLoad abFrame ++ [.wait] } }
    s.params.wf = true ∧ s.curOp = none ∧ abFrame.length ≤ s.params.lbufSize ∧
    s.host.script = opLoad abFrame ++ [.wait] := by decide

/-- SendDataBuildsTheFrame, ReceiveDataSetsItsDeadline: an idle block and a host with nothing to do. -/
theorem witness_calls :
    full.params.wf = true ∧ full.curOp = none ∧ full.host.script = [] ∧ full.host.proc = .none ∧
    abFrame.length ≤ full.params.lbufSize ∧ 1 ≤ 8 ∧ 8 ≤ full.params.lbufSize := by decide

/-- ReceiveDataFailures: sizes 0 and LBUF_SIZE + 1, TIMEOUT, MISMATCH and NOT_FOUND. -/
theorem witness_failures :
    (0 < 1 ∨ full.params.lbufSize < 0) ∧ (9 < 1 ∨ full.params.lbufSize < 9) ∧
    ((0x30 : Word).extractLsb' 4 4).toNat = 3 ∧ ((0x70 : Word).extractLsb' 4 4).toNat = 7 ∧
    ((0x50 : Word).extractLsb' 4 4).toNat = 5 ∧
    ({ HostAgent.quiet with proc := .recvLine [], rdata := 0x30 } : HostAgent).proc = .recvLine [] ∧
    ({ HostAgent.quiet with proc := .recvFrame [], rdata := 0x70 } : HostAgent).proc = .recvFrame [] := by decide

/-- RetriesKeepTheDeadline: each position of the loop, and the step from its head. -/
theorem witness_retries :
    (∀ p ∈ [Proc.recvLoop [], .recvLine [], .recvFrame [], .recvLen [], .recvByte [] 0 0], p.inReceiveLoop = true) ∧
    after (hostStep { State.reset with host := { HostAgent.quiet with proc := .recvLoop [] } }) (·.host.proc) =
      some (.recvLine []) := by decide

/-- ReceiveDataAppliesThePrefix: the payload `"AB"` after VALID, with a prefix that matches and one that does
not. -/
theorem witness_prefix :
    let s (pfx : List Byte) : State := { loaded [0x41, 0x42] with
      host := { HostAgent.quiet with proc := .recvFrame pfx, rdata := 0x60 } }
    (s [0x41]).params.wf = true ∧ (s [0x41]).curOp = none ∧ (s [0x41]).unsettled = false ∧ (s [0x41]).host.script = [] ∧
    (s [0x41]).host.proc = .recvFrame [0x41] ∧ ((s [0x41]).host.rdata.extractLsb' 4 4).toNat = 6 ∧
    (s [0x41]).len.toNat < (s [0x41]).params.lbufSize ∧
    [0x41] <+: (s [0x41]).lbufSpan 0 (s [0x41]).len.toNat ∧
    ¬ [0x42] <+: (s [0x42]).lbufSpan 0 (s [0x42]).len.toNat := by decide

/-- WaitUntilAvailablePolls: an idle host; RXAV set and clear, the deadline reached and not. -/
theorem witness_wait :
    HostAgent.quiet.proc = .none ∧
    (0x100000 : Word).getLsbD 20 = true ∧ (0 : Word).getLsbD 20 = false ∧
    ({ HostAgent.quiet with proc := .availStatus 0 200 } : HostAgent).proc = .availStatus 0 200 ∧
    ({ HostAgent.quiet with proc := .availTime 0 200, rdata := 201 } : HostAgent).proc = .availTime 0 200 ∧
    expired .gt ((201 : Word) - 0) 200 = true ∧ expired .gt ((200 : Word) - 0) 200 = false ∧
    HostAgent.quiet.script = [] := by decide

end Sys2Proof.Tests
end

namespace Sys2Proof.Machine

/-! ## Proofs: the registers and the port (10_state.md) -/

/-! ### The step, by the agent that moves -/

theorem step_of_env_nil {s : State} (h : s.env = []) : step s = blockStep s := by simp only [step, h]

theorem step_of_env_cons {s : State} {e : Event} {rest : List Event} (h : s.env = e :: rest) :
    step s = eventStep { s with env := rest } e := by simp only [step, h]

/-- The agents' moves, with what each may do: the block controller's and the host's are steps of theirs, a call
and a clock tick touch the host and the clock alone. -/
inductive StepMove (s t : State) : Prop where
  | block (rest : List Event) (henv : s.env.head? = none ∨ s.env.head? = some .block)
      (h : blockStep { s with env := rest } = .next t)
  | host (rest : List Event) (henv : s.env = .host :: rest) (h : hostStep { s with env := rest } = .next t)
  | world (h : t = { s with host := t.host, now := t.now, sinceSample := t.sinceSample, env := t.env })
  | arrive (bs : List Byte) (rest : List Event) (henv : s.env = .arrive bs :: rest)
      (h : t = { s with rx := s.rx ++ bs, env := rest })
  | rst (rest : List Event) (henv : s.env = .rst :: rest) (h : t = ({ s with env := rest } : State).rst)

/-- Every step is one of the moves (00_scope.md R16). -/
theorem step_move {s t : State} (h : step s = .next t) : StepMove s t := by
  rcases step_cases h with ⟨henv, h⟩ | ⟨e, rest, henv, h⟩
  · exact .block [] (.inl (by simp [henv])) (by rw [← henv]; exact h)
  · cases e with
    | block => exact .block rest (.inr (by simp [henv])) h
    | host => exact .host rest henv h
    | call c =>
      obtain ⟨f, rfl⟩ := startCall_cases h
      exact .world rfl
    | arrive bs => cases h; exact .arrive bs rest henv rfl
    | tick d => exact .world (by rw [clockTick_cases h])
    | rst => cases h; exact .rst rest henv rfl

/-! ### Register accesses, one equation a kind -/

theorem aligned_offset (r : Reg) : aligned r.offset.toNat .w4 = true := by cases r <;> rfl

theorem regionOf_offset (r : Reg) : regionOf r.offset.toNat = .regs := by cases r <;> rfl

theorem ofOffset_offset (r : Reg) : Reg.ofOffset r.offset.toNat = some r := by cases r <;> rfl

/-- A host read of an aligned address completes. -/
theorem busAccess_read {a : BitVec 14} {w : Width} (h : aligned a.toNat w = true) (s : State) :
    busAccess s (.read a w) = .next (s.busRead a.toNat w) := if_pos h

/-- A host write of an aligned address completes. -/
theorem busAccess_write {a : BitVec 14} {w : Width} (h : aligned a.toNat w = true) (s : State) (v : Word) :
    busAccess s (.write a w v) = .next (s.busWrite a.toNat w v) := if_pos h

theorem busRead_reg {a : Nat} {r : Reg} (ha : regionOf a = .regs) (hr : Reg.ofOffset a = some r) (s : State)
    (w : Width) :
    s.busRead a w =
      if s.unstable && r.isResult then s.returnedAny (s.anyReg r)
      else if r = .now then s.sampled.returned s.now
      else if r = .status then s.statusRead
      else s.returned (s.regValue r) := by
  simp only [State.busRead, ha, hr]

/-- A read of a register other than NOW and STATUS, a result register's of stable results (R22). -/
theorem busAccess_readReg {s : State} (r : Reg) (hu : (s.unstable && r.isResult) = false) (hn : r ≠ .now)
    (hs : r ≠ .status) : busAccess s (.read r.offset .w4) = .next (s.returned (s.regValue r)) := by
  rw [busAccess_read (aligned_offset r), busRead_reg (regionOf_offset r) (ofOffset_offset r)]
  simp [hu, hn, hs]

/-- A read of a register that holds no result (R42). -/
theorem busAccess_readReg_of_not_result (s : State) (r : Reg) (hr : r.isResult = false) (hn : r ≠ .now)
    (hs : r ≠ .status) : busAccess s (.read r.offset .w4) = .next (s.returned (s.regValue r)) :=
  busAccess_readReg r (by simp [hr]) hn hs

/-- A NOW read is a sample of the clock (R35, R41). -/
theorem busAccess_readNow (s : State) : busAccess s (.read 0x034 .w4) = .next (s.sampled.returned s.now) := by
  refine (busAccess_read (aligned_offset .now) s).trans ?_
  rw [busRead_reg (regionOf_offset .now) (ofOffset_offset .now)]
  simp [Reg.isResult]

/-- A STATUS read (R23). -/
theorem busAccess_readStatus (s : State) : busAccess s (.read 0x004 .w4) = .next s.statusRead := by
  refine (busAccess_read (aligned_offset .status) s).trans ?_
  rw [busRead_reg (regionOf_offset .status) (ofOffset_offset .status)]
  simp [Reg.isResult]

/-- A host write of a register. -/
theorem busAccess_writeReg (s : State) (r : Reg) (v : Word) :
    busAccess s (.write r.offset .w4 v) = .next (s.writeReg r v) := by
  rw [busAccess_write (aligned_offset r)]
  simp only [State.busWrite, regionOf_offset, ofOffset_offset]

/-! ### Accepted commands and operand writes -/

theorem accept_legal {v : Word} {i : Instr} (h : decodeWord v = .ok i) (s : State) : s.accept v = s.latch v := by
  simp only [State.accept, h]

theorem accept_illegal {v : Word} (h : ∀ i, decodeWord v ≠ .ok i) (s : State) :
    s.accept v = (s.latch v).raise .illegal := by
  obtain ⟨r, hr⟩ := (decodeWord_error_iff v).2 fun ⟨i, hi⟩ => h i hi
  simp only [State.accept, hr]

/-- A CMD write to an idle block is accepted (R37). -/
theorem busAccess_writeCmd {s : State} (hc : s.curOp = none) (v : Word) :
    busAccess s (.write 0x000 .w4 v) = .next (s.accept v) :=
  (busAccess_writeReg s .cmd v).trans (congrArg _ (writeReg_cmd hc v))

/-- Settles O5: the accepted word is latched. -/
theorem legalCommandIsLatched : Obligations.LegalCommandIsLatched := by
  intro s v i hc hi
  rw [busAccess_writeCmd hc, accept_legal hi]
  rfl

/-- Settles O6: the accepted word is latched and ILLEGAL raised over it. -/
theorem illegalCommandRaisesIllegal : Obligations.IllegalCommandRaisesIllegal := by
  intro s v hc hv
  rw [busAccess_writeCmd hc, accept_illegal hv]
  rfl

/-- Settles O37: an idle write of a register other than CMD is `State.setOperand`. -/
theorem operandWritesSetTheirFields : Obligations.OperandWritesSetTheirFields := by
  intro s v hc
  have write (r : Reg) (hr : r ≠ .cmd) : busAccess s (.write r.offset .w4 v) = .next (s.setOperand r v) := by
    rw [busAccess_writeReg, writeReg_operand hr hc]
  exact ⟨write .size nofun, write .t0 nofun, write .tmo nofun, write .len nofun, write .aOff nofun,
    write .aCnt nofun, write .term nofun⟩

/-! ### Register reads -/

/-- Settles O35: each register's read returns `State.regValue`, a result register's once results are stable. -/
theorem registerReadsReturnTheirFields : Obligations.RegisterReadsReturnTheirFields := by
  intro s
  refine ⟨?_, fun hc hu => ?_⟩
  · have read := busAccess_readReg_of_not_result s
    exact ⟨read .cmd rfl nofun nofun, read .size rfl nofun nofun, read .t0 rfl nofun nofun,
      read .tmo rfl nofun nofun, read .aOff rfl nofun nofun, read .aCnt rfl nofun nofun,
      read .term rfl nofun nofun, busAccess_readNow s, read .cfg rfl nofun nofun⟩
  · have read (r : Reg) := busAccess_readReg (s := s) r (by simp [stable_of hc hu])
    exact ⟨read .len nofun nofun, read .crc nofun nofun, read .cksum nofun nofun, read .comma nofun nofun,
      read .olen nofun nofun⟩

/-- The bits of STATUS that no field names (R23). -/
theorem statusWord_unnamed (s : State) {k : Nat}
    (hk : k ∈ [1, 2, 3, 14, 15, 18, 19, 21, 22, 23, 24, 25, 26, 27, 28, 29, 30, 31]) :
    s.statusWord.getLsbD k = false := by
  simp only [State.statusWord, BitVec.getLsbD_append]
  fin_cases hk <;> simp

/-- A STATUS read that returns BUSY = 0 settles the results, one that returns BUSY = 1 leaves them (R59). -/
theorem statusRead_eq (s : State) :
    s.statusRead = { s with
      host := { s.host with rdata := s.statusWord }
      unsettled := if s.curOp = none then false else s.unsettled } := by
  cases h : s.curOp <;> simp [State.statusRead, State.returned, h]

/-- Settles O36, with the packed word of R23, field by field. -/
theorem statusWordHasItsFields : Obligations.StatusWordHasItsFields := by
  intro s
  obtain ⟨hovr, htrunc, hrxav⟩ := statusWord_flags s
  refine ⟨s.statusWord, ?_, ?_, ?_, ?_, hovr, htrunc, ?_, ?_, fun k => statusWord_unnamed s⟩
  · rw [busAccess_readStatus, statusRead_eq]
  · rw [statusWord_busy, Option.isSome_iff_ne_none]
  · rw [statusWord_res]; cases s.res <;> rfl
  · rw [statusWord_err]; cases s.err <;> rfl
  · rw [statusWord_lrState]; cases s.lrState <;> rfl
  · rw [hrxav, List.isSome_head?]

/-! ### Ignored writes and reserved reads -/

/-- The registers that ignore writes (R22). -/
def Reg.isReadOnly : Reg → Bool
  | .status | .crc | .cksum | .comma | .olen | .now | .cfg => true
  | _ => false

theorem writeReg_readOnly {r : Reg} (hr : r.isReadOnly = true) (s : State) (v : Word) : s.writeReg r v = s := by
  cases r <;> simp [Reg.isReadOnly] at hr <;> exact ite_self s

/-- A register offset at which no writable register stands ignores writes (R22, R38). -/
theorem busWrite_no_writable_reg {a : Nat} (ha : a < 0x1000)
    (hr : ∀ r, Reg.ofOffset a = some r → r.isReadOnly = true) (s : State) (w : Width) (v : Word) :
    s.busWrite a w v = s := by
  simp only [State.busWrite, regionOf_regs ha]
  cases h : Reg.ofOffset a with
  | none => rfl
  | some r => exact writeReg_readOnly (hr r h) s v

theorem ofOffset_readOnly {a : Nat} (ha : a ∈ [0x004, 0x020, 0x024, 0x028, 0x030, 0x034, 0x038]) :
    a < 0x1000 ∧ ∀ r, Reg.ofOffset a = some r → r.isReadOnly = true := by
  fin_cases ha <;> simp [Reg.ofOffset, Reg.isReadOnly]

/-- The OBUF window and the reserved range ignore writes (R38, R51). -/
theorem busWrite_above_lbuf {a : Nat} (ha : 0x2000 ≤ a) (s : State) (w : Width) (v : Word) :
    s.busWrite a w v = s := by
  by_cases h : a < 0x3000
  · simp only [State.busWrite, regionOf_obuf ha h]
  · simp only [State.busWrite, regionOf_reserved (Nat.le_of_not_lt h)]

/-- Reserved register offsets and the reserved range read 0 (R38, R51). -/
theorem busRead_reserved {a : Nat} (ha : (0x03C ≤ a ∧ a < 0x1000) ∨ 0x3000 ≤ a) (s : State) (w : Width) :
    s.busRead a w = s.returned 0 := by
  rcases ha with ⟨hlo, hhi⟩ | ha
  · simp only [State.busRead, regionOf_regs hhi, ofOffset_reserved hlo]
  · simp only [State.busRead, regionOf_reserved ha]

/-- Settles O38, by the kinds of address. -/
theorem ignoredAndReservedAccesses : Obligations.IgnoredAndReservedAccesses := by
  intro s a w v hal
  rw [busAccess_write hal, busAccess_read hal]
  refine ⟨fun ha => congrArg _ ?_, fun ha => congrArg _ (busRead_reserved ha s w)⟩
  rcases ha with ha | ⟨hlo, hhi⟩ | ha
  · obtain ⟨hlt, hro⟩ := ofOffset_readOnly ha
    exact busWrite_no_writable_reg hlt hro s w v
  · exact busWrite_no_writable_reg hhi (by simp [ofOffset_reserved hlo]) s w v
  · exact busWrite_above_lbuf ha s w v

/-- A busy block ignores writes of every register but CMD (R42). -/
theorem writeReg_busy {s : State} (hc : s.curOp ≠ none) {r : Reg} (hr : r ≠ .cmd) (v : Word) :
    s.writeReg r v = s := by
  have hb : s.busy = true := Option.isSome_iff_ne_none.2 hc
  cases r with
  | cmd => exact absurd rfl hr
  | _ => exact if_pos hb

/-- A busy block ignores writes of every address but CMD's (R42). -/
theorem busWrite_busy {s : State} (hc : s.curOp ≠ none) {a : Nat} (ha : a ≠ 0) (w : Width) (v : Word) :
    s.busWrite a w v = s := by
  unfold State.busWrite
  split
  · split
    · rfl
    · next r hr =>
      refine writeReg_busy hc (fun h => ha (ofOffset_cmd ?_)) v
      rw [hr, h]
  · exact if_pos (Option.isSome_iff_ne_none.2 hc)
  · rfl
  · rfl

/-- Settles O42: no register but CMD, and no window, takes a write of a busy block. -/
theorem writesWhileBusyAreIgnored : Obligations.WritesWhileBusyAreIgnored := by
  intro s a w v hc ha hal
  rw [busAccess_write hal, busWrite_busy hc fun h => ha (BitVec.eq_of_toNat_eq h)]

/-! ### Reads of unstable results -/

theorem returnedAny_eq (s : State) (v : Word) :
    s.returnedAny v = { s with
      host := { s.host with rdata := v }, free := if s.curOp = none then s.free else s.free + 1 } := by
  cases h : s.curOp <;> simp [State.returnedAny, State.returned, h]

/-- A read of a result register or of a window returns some value while results are unstable (R43, R59). -/
theorem busRead_unstable {s : State} (hu : s.unstable = true) {a : Nat}
    (ha : a ∈ [0x014, 0x020, 0x024, 0x028, 0x030] ∨ (0x1000 ≤ a ∧ a < 0x3000)) (w : Width) :
    ∃ v, s.busRead a w = s.returnedAny v := by
  rcases ha with ha | ⟨hlo, hhi⟩
  · obtain ⟨r, hreg, hr, hres⟩ : ∃ r, regionOf a = .regs ∧ Reg.ofOffset a = some r ∧ r.isResult = true := by
      fin_cases ha <;> exact ⟨_, rfl, rfl, rfl⟩
    exact ⟨s.anyReg r, by rw [busRead_reg hreg hr]; simp [hu, hres]⟩
  · refine ⟨s.anyRead a (widthBytes w), ?_⟩
    by_cases h : a < 0x2000
    · simp only [State.busRead, regionOf_lbuf hlo h, hu, if_true]
    · simp only [State.busRead, regionOf_obuf (Nat.le_of_not_lt h) hhi, hu, if_true]

/-- No read unsettles the results (R59). -/
theorem busRead_settled {s : State} (hs : s.unsettled = false) (a : Nat) (w : Width) :
    (s.busRead a w).unsettled = false := by
  rcases busRead_unsettled s a w with h | ⟨-, -, h⟩
  · rw [h, hs]
  · exact h

/-- A bus access that unsettles the results is the accepted write of CMD (R59, R37). -/
theorem busAccess_unsettles {s t : State} {x : Access} (h : busAccess s x = .next t) (hs : s.unsettled = false)
    (ht : t.unsettled = true) : s.curOp = none ∧ ∃ v, x = .write 0x000 .w4 v := by
  cases x with
  | read a w =>
    simp only [busAccess] at h
    split at h <;> cases h
    rw [busRead_settled hs] at ht
    cases ht
  | write a w v =>
    simp only [busAccess] at h
    split at h <;> cases h
    next hal =>
    obtain ⟨ha, hc, -⟩ := busWrite_unsettled hs ht
    have hw : w = .w4 := by
      rw [ha, aligned_iff (by decide)] at hal
      simpa using hal
    exact ⟨hc, v, by rw [hw, BitVec.eq_of_toNat_eq (y := 0x000) ha]⟩

/-- A host step that unsettles the results is the accepted write of CMD (R59). -/
theorem hostStep_unsettles {s t : State} (h : hostStep s = .next t) (hs : s.unsettled = false)
    (ht : t.unsettled = true) :
    s.curOp = none ∧ ∃ v ops, s.host.script = .acc (.write 0x000 .w4 v) :: ops := by
  rcases hostStep_cases h with ⟨x, ops, hx, hb⟩ | ⟨ops, f, -, rfl⟩ | ⟨-, f, rfl⟩
  · obtain ⟨hc, v, rfl⟩ := busAccess_unsettles hb hs ht
    exact ⟨hc, v, ops, hx⟩
  · exact absurd (busRead_settled hs _ _) (ne_false_of_eq_true ht)
  · exact absurd hs (ne_false_of_eq_true ht)

/-- A step that unsettles the results is the host's write of CMD to an idle block (R59, R37). -/
theorem step_unsettles {s t : State} (h : step s = .next t) (hs : s.unsettled = false) (ht : t.unsettled = true) :
    s.curOp = none ∧
      ∃ rest v ops, s.env = .host :: rest ∧ s.host.script = .acc (.write 0x000 .w4 v) :: ops := by
  have kept (hk : t.unsettled = s.unsettled) : False := by simp [hk, hs] at ht
  cases step_move h with
  | block _ _ h =>
    have hk := blockStep_unsettled h
    exact (kept hk).elim
  | host rest henv h =>
    obtain ⟨hc, v, ops, hops⟩ := hostStep_unsettles h hs ht
    exact ⟨hc, rest, v, ops, henv, hops⟩
  | world h => rw [h] at kept; exact (kept rfl).elim
  | arrive _ _ _ h => rw [h] at kept; exact (kept rfl).elim
  | rst _ _ h => rw [h] at ht; cases ht

/-- Settles O43: the unstable reads, the specified ones (those of O35), and how results become unsettled. -/
theorem readsWhileBusy : Obligations.ReadsWhileBusy := by
  refine ⟨fun s hs => ⟨fun a w hal ha => ?_, (registerReadsReturnTheirFields s).1⟩,
    fun s t => step_unsettles, fun s rest henv => ?_⟩
  · have hu : s.unstable = true := by
      simpa [State.unstable, Option.isSome_iff_ne_none] using hs
    obtain ⟨v, hv⟩ := busRead_unstable hu ha w
    exact ⟨v, by rw [busAccess_read hal, hv, returnedAny_eq]⟩
  · exact ⟨_, step_of_env_cons henv, rfl⟩

/-! ### The commands answer -/

/-- Every command but READLINE ends in its block step (70_reset_and_hazards.md R232). -/
theorem exec_ends {i : Instr} (hi : i ≠ .readline) (s : State) : ∃ t, exec i s = .next t ∧ t.curOp = none := by
  have crc (seed : Half) : (s.crcCommand seed).curOp = none := by
    unfold State.crcCommand
    split <;> rfl
  cases i with
  | crcx => exact ⟨_, rfl, crc _⟩
  | crcc => exact ⟨_, rfl, crc _⟩
  | readline => exact absurd rfl hi
  | decode =>
    simp only [exec, execDecode]
    split
    · exact ⟨_, rfl, rfl⟩
    · split <;> exact ⟨_, rfl, rfl⟩
  | verify =>
    simp only [exec, execVerify]
    split
    · exact ⟨_, rfl, rfl⟩
    · split
      · exact ⟨_, rfl, rfl⟩
      · split <;> exact ⟨_, rfl, rfl⟩
  | encode =>
    simp only [exec, execEncode]
    split <;> exact ⟨_, rfl, rfl⟩

/-- READLINE's block step is a RANGE error, or a poll iteration from a state that differs in the line assembler
alone (41_line_reader.md R120). -/
theorem execReadline_cases (s : State) :
    exec .readline s = .next (s.raise .range) ∨
      ∃ st n, exec .readline s = .next ({ s with lrState := st, lrLen := n } : State).poll := by
  simp only [exec, execReadline]
  split
  · split
    · exact .inl rfl
    · exact .inr ⟨_, _, rfl⟩
  · exact .inr ⟨s.lrState, s.lrLen, rfl⟩

/-- Every command answers a next state in every state. -/
theorem exec_answers (i : Instr) (s : State) : ∃ t, exec i s = .next t := by
  by_cases hi : i = .readline
  · subst hi
    rcases execReadline_cases s with h | ⟨st, n, h⟩ <;> exact ⟨_, h⟩
  · obtain ⟨t, ht, -⟩ := exec_ends hi s
    exact ⟨t, ht⟩

/-! ### The block controller's step -/

/-- A latched legal word: its command's block step. -/
theorem blockStep_latched {s : State} {w : Word} {i : Instr} (hw : s.curOp = some w) (hi : decodeWord w = .ok i) :
    blockStep s = exec i s := by simp only [blockStep, State.fetch_eq, hw, hi]

/-- An idle block does nothing (R21). -/
theorem blockStep_idle {s : State} (h : s.curOp = none) : blockStep s = .next s := by
  simp only [blockStep, State.fetch_eq, h]

/-- Settles O4: the block step is the latched command's, whichever way the block comes to move. -/
theorem stepRunsTheLatchedCommand : Obligations.StepRunsTheLatchedCommand := by
  intro s
  refine ⟨fun w i hw hi => ⟨fun henv => ?_, fun rest henv => ?_⟩,
    fun hc => ⟨fun henv => ?_, fun rest henv => ?_⟩⟩
  · rw [step_of_env_nil henv, blockStep_latched hw hi]
  · rw [step_of_env_cons henv]; exact blockStep_latched (s := { s with env := rest }) hw hi
  · rw [step_of_env_nil henv, blockStep_idle hc]
  · rw [step_of_env_cons henv]; exact blockStep_idle (s := { s with env := rest }) hc

/-! ### The clock -/

/-- Settles O48: the branches of `clockTick`. -/
theorem clockAdvances : Obligations.ClockAdvances := by
  intro s d rest henv
  rw [step_of_env_cons henv]
  refine ⟨fun hn => ?_, fun e he hlt => ?_, fun e he hle => ?_⟩ <;> simp only [eventStep, clockTick]
  · simp only [hn]
  · simp only [he, if_pos hlt]
  · simp only [he, if_neg (Nat.not_lt.2 hle)]

/-! ### The receive port -/

/-- No host step touches the port. -/
theorem hostStep_rx {s t : State} (h : hostStep s = .next t) : t.rx = s.rx := by
  obtain ⟨f, u, hu, ht⟩ := hostStep_frame h
  rw [ht]; exact hu.rx

/-- A block step leaves the port, or is READLINE's and takes the presented byte (R40, R125). -/
theorem blockStep_rx {s t : State} (h : blockStep s = .next t) :
    t.rx = s.rx ∨ (s.curOp = some 0x00000002#32 ∧ ∃ b, s.rx = b :: t.rx) := by
  obtain ⟨hf, -, hrx⟩ := blockStep_frame h
  rcases hf.rx with hk | hpop
  · exact .inl hk
  · exact hrx.imp_right fun hw => ⟨hw, hpop⟩

/-- Settles O49, move by move. -/
theorem onlyReadlinePopsThePort : Obligations.OnlyReadlinePopsThePort := by
  intro s t h
  cases step_move h with
  | block _ henv h =>
    rcases blockStep_rx h with hk | ⟨hw, hpop⟩
    · exact .inl hk
    · exact .inr (.inr ⟨hw, henv, hpop⟩)
  | host _ _ h =>
    have hk := hostStep_rx h
    exact .inl hk
  | world h => rw [h]; exact .inl rfl
  | arrive bs _ henv h => rw [h]; exact .inr (.inl ⟨bs, by simp [henv], rfl⟩)
  | rst _ _ h => rw [h]; exact .inl rfl

/-! ### Operands while busy -/

/-- A poll iteration writes LEN only where it ends the command (41_line_reader.md R129, R130). -/
theorem poll_len (s : State) : s.poll.len = s.len ∨ s.poll.curOp = none := by
  cases hd : s.deadlineReached with
  | true => rw [poll_late hd]; exact .inr rfl
  | false =>
    cases hx : s.crExits with
    | true =>
      rw [poll_crExit hd hx, State.crExit]
      split
      · exact .inr rfl
      · exact .inl rfl
    | false =>
      cases hr : s.rx with
      | nil => rw [poll_empty hd hx hr]; exact .inl rfl
      | cons c r =>
        rw [poll_consume hd hx hr, State.consume]
        split_ifs
        · exact .inl rfl
        · exact .inr rfl
        · exact .inl rfl
        · exact .inl rfl
        · exact .inl rfl

/-- A command writes LEN only in the block step that ends it (R44). -/
theorem exec_len {i : Instr} {s t : State} (h : exec i s = .next t) : t.len = s.len ∨ t.curOp = none := by
  by_cases hi : i = .readline
  · subst hi
    rcases execReadline_cases s with hr | ⟨st, n, hr⟩ <;> rw [hr] at h <;> cases h
    · exact .inl rfl
    · exact poll_len _
  · obtain ⟨u, hu, hc⟩ := exec_ends hi s
    rw [hu] at h; cases h
    exact .inr hc

/-- A block step writes LEN only where it ends the command (R44). -/
theorem blockStep_len {s t : State} (h : blockStep s = .next t) : t.len = s.len ∨ t.curOp = none := by
  unfold blockStep at h
  split at h
  · cases h; exact .inl rfl
  · split at h
    · exact exec_len h
    · cases h; exact .inl rfl

/-- A host step on a busy block changes OVR and the model's counters and marks alone (R42, R43). -/
theorem hostStep_busy {s t : State} (hc : s.curOp ≠ none) (h : hostStep s = .next t) :
    t = { s with
      ovr := t.ovr, host := t.host, sinceSample := t.sinceSample, unsettled := t.unsettled, free := t.free } := by
  obtain ⟨f, u, hu, ht⟩ := hostStep_frame h
  rw [hu.busy (Option.isSome_iff_ne_none.2 hc)] at ht
  rw [ht]

/-- Settles O50, move by move: the block's step keeps the operands by its frame, and writes LEN only as it ends. -/
theorem operandsAreFrozenWhileBusy : Obligations.OperandsAreFrozenWhileBusy := by
  intro s t hc h hrst
  cases step_move h with
  | block _ henv h =>
    obtain ⟨hf, -, -⟩ := blockStep_frame h
    exact ⟨hf.size, hf.t0, hf.tmo, hf.aOff, hf.aCnt, hf.term, (blockStep_len h).imp_right (⟨·, henv⟩), hf.curOp⟩
  | host rest _ h =>
    rw [hostStep_busy (s := { s with env := rest }) hc h]
    exact ⟨rfl, rfl, rfl, rfl, rfl, rfl, .inl rfl, .inl rfl⟩
  | world h => rw [h]; exact ⟨rfl, rfl, rfl, rfl, rfl, rfl, .inl rfl, .inl rfl⟩
  | arrive _ _ _ h => rw [h]; exact ⟨rfl, rfl, rfl, rfl, rfl, rfl, .inl rfl, .inl rfl⟩
  | rst _ henv _ => simp [henv] at hrst

/-! ### Refusals -/

/-- No block step is refused: every command answers. -/
theorem blockStep_not_refused (s : State) (r : Refusal) : blockStep s ≠ .refused r := by
  unfold blockStep
  split
  · nofun
  · split
    · next i _ =>
      obtain ⟨t, ht⟩ := exec_answers i s
      simp [ht]
    · nofun

/-- No host step is refused. -/
theorem hostStep_not_refused (s : State) (r : Refusal) : hostStep s ≠ .refused r := by
  unfold hostStep
  split
  · next a _ _ => cases a <;> simp only [busAccess] <;> split <;> nofun
  · nofun
  · nofun

/-- The clock is refused past its bound alone (U10, log 13). -/
theorem clockTick_refused_iff (s : State) (d : Word) (r : Refusal) :
    clockTick s d = .refused r ↔ ∃ e, s.sinceSample = some e ∧ 2 ^ 31 ≤ e + d.toNat ∧ r = .clockJump := by
  unfold clockTick
  cases s.sinceSample with
  | none => simp
  | some e =>
    dsimp only
    split
    · next hlt =>
      refine ⟨nofun, ?_⟩
      rintro ⟨_, ⟨⟩, hge, -⟩
      exact absurd hlt (Nat.not_lt.2 hge)
    · next hge =>
      constructor
      · rintro ⟨⟩; exact ⟨e, rfl, Nat.le_of_not_lt hge, rfl⟩
      · rintro ⟨-, -, -, rfl⟩; rfl

theorem hostRunning_iff (s : State) : s.hostRunning = true ↔ s.host.script ≠ [] ∨ s.host.proc ≠ .none := by
  simp [State.hostRunning]

/-- A call is refused to a host that is not idle, and for a payload longer than LBUF (R186, R189, log 19). -/
theorem startCall_refused_iff (s : State) (c : Call) (r : Refusal) :
    startCall s c = .refused r ↔
      ((s.host.script ≠ [] ∨ s.host.proc ≠ .none) ∧ r = .procedureRunning) ∨
      ∃ p, c = .sendData p ∧ s.host.script = [] ∧ s.host.proc = .none ∧ s.params.lbufSize < p.length ∧
        r = .payloadTooLong := by
  by_cases hrun : s.hostRunning = true
  · have hbusy := (hostRunning_iff s).1 hrun
    have hrefused : startCall s c = .refused .procedureRunning := if_pos hrun
    rw [hrefused]
    constructor
    · rintro ⟨⟩; exact .inl ⟨hbusy, rfl⟩
    · rintro (⟨-, rfl⟩ | ⟨-, -, hs, hp, -⟩)
      · rfl
      · simp [hs, hp] at hbusy
  · obtain ⟨hs, hp⟩ : s.host.script = [] ∧ s.host.proc = .none := by simpa [hostRunning_iff] using hrun
    simp only [startCall, if_neg hrun, hs, hp]
    cases c with
    | receiveData pfx size timeout => dsimp only; split <;> simp
    | waitUntilAvailable timeout => simp
    | sendData p =>
      dsimp only
      split
      · next hlong => simp [hlong, eq_comm]
      · next hfits => simp [hfits]
    | program ops => simp

/-- Settles O53, move by move. -/
theorem noCommandIsRefused : Obligations.NoCommandIsRefused := by
  refine ⟨exec_answers, fun s r => ?_⟩
  cases henv : s.env with
  | nil => simp [step_of_env_nil henv, blockStep_not_refused]
  | cons e rest =>
    rw [step_of_env_cons henv]
    cases e with
    | block => simp [eventStep, blockStep_not_refused]
    | host => simp [eventStep, hostStep_not_refused]
    | call c => simp [eventStep, startCall_refused_iff]
    | arrive bs => simp [eventStep]
    | tick d => simp [eventStep, clockTick_refused_iff]
    | rst => simp [eventStep]

end Sys2Proof.Machine

namespace Sys2Proof.Machine

/-! ## Proofs: memory, the frames of the commands, and the invariant (20_memory.md) -/

/-! ### What the block step of each command can be -/

theorem crcCommand_cases (s : State) (seed : Half) :
    s.crcCommand seed = s.raise .range ∨
      s.crcCommand seed = ({ s with crc := crc16 seed s.crcSpan } : State).finish .done := by
  unfold State.crcCommand
  split
  · exact .inl rfl
  · exact .inr rfl

theorem execDecode_cases {s t : State} (h : exec .decode s = .next t) :
    t = s.raise .range ∨ ∃ r, t = (s.writeSuffix s.suffix).finish r := by
  simp only [exec, execDecode] at h
  split at h
  · cases h; exact .inl rfl
  · split at h <;> next hx => cases h; exact .inr ⟨_, by rw [hx]⟩

/-- The ends of VERIFY (42_frame_codec.md R165): the RANGE error, a suffix that is missing or does not match, and
the suffix that is stripped. -/
inductive VerifyEnd (s t : State) : Prop where
  | range (h : t = s.raise .range)
  | refused (c : Half) (r : Res) (hr : r ≠ .valid)
      (h : t = ({ s.writeSuffix s.suffix with crc := c } : State).finish r)
  | valid (k v : Nat) (c : Half) (hlen : s.len.toNat ≤ s.params.lbufSize) (hx : s.suffix = .found k v)
      (h : t = ({ s.writeSuffix s.suffix with crc := c } : State).strip k)

theorem execVerify_ends {s t : State} (h : exec .verify s = .next t) : VerifyEnd s t := by
  simp only [exec, execVerify] at h
  split at h
  · cases h; exact .range rfl
  · next hlen =>
    split at h
    · next f k hx => cases h; exact .refused s.crc .notFound nofun (by rw [hx]; rfl)
    · next k v hx =>
      split at h <;> cases h
      · exact .valid k v _ (by simpa [State.lenOutOfRange] using hlen) hx (by rw [hx])
      · exact .refused _ .mismatch nofun (by rw [hx])

theorem execEncode_cases {s t : State} (h : exec .encode s = .next t) :
    t = s.raise .range ∨
      (s.len.toNat ≤ s.params.lbufSize ∧
        t = ({ s.setObufs 0 (frame s.line s.term) with
          olen := BitVec.ofNat 16 (frame s.line s.term).length, crc := crc16Xmodem s.line } : State).finish .done) := by
  simp only [exec, execEncode] at h
  split at h
  · cases h; exact .inl rfl
  · next hlen =>
    cases h
    exact .inr ⟨by simpa [State.lenOutOfRange] using hlen, rfl⟩

/-- READLINE's block step: a RANGE error, the first iteration at length 0, or the next one (41_line_reader.md
R120). -/
inductive ReadlineMove (s t : State) : Prop where
  | range (h : t = s.raise .range)
  | start (hlo : 1 ≤ s.size.toNat) (hhi : s.size.toNat ≤ s.params.lbufSize)
      (h : t = ({ s with lrState := .accumulating, lrLen := 0 } : State).poll)
  | poll (hst : s.lrState ≠ .idle) (h : t = s.poll)

theorem execReadline_move {s t : State} (h : exec .readline s = .next t) : ReadlineMove s t := by
  simp only [exec, execReadline] at h
  split at h
  · split at h
    · cases h; exact .range rfl
    · next hsize =>
      simp only [State.sizeOutOfRange, Bool.or_eq_true, decide_eq_true_eq, not_or] at hsize
      cases h
      exact .start (by omega) (by omega) rfl
  · next hst => cases h; exact .poll hst rfl

/-- What a poll iteration can do, by what it leaves of the line: the deadline ends it, an LF or a CR exit ends it,
no byte is presented, a terminator is noted, a data byte is stored, or one is dropped (41_line_reader.md R122). -/
inductive PollMove (s t : State) : Prop where
  | late (h : t = s.sampled.timedOut)
  | line (rx : List Byte) (h : t = ({ s with rx := rx, sinceSample := some 0 } : State).lineDone)
  | wait (h : t = s.sampled)
  | terminator (rx : List Byte) (st : LrState) (hst : st ≠ .idle) (sample : Word)
      (h : t = { s with rx := rx, lrState := st, crTime := sample, sinceSample := some 0 })
  | store (rx : List Byte) (c : Byte) (hroom : s.lrLen.toNat < s.size.toNat - 1)
      (h : t = ({ s with rx := rx, lrLen := s.lrLen + 1, sinceSample := some 0 } : State).setLbuf s.lrLen.toNat c)
  | drop (rx : List Byte) (h : t = { s with rx := rx, trunc := true, sinceSample := some 0 })

theorem poll_move (s : State) : PollMove s s.poll := by
  cases hd : s.deadlineReached with
  | true => exact .late (poll_late hd)
  | false =>
    cases hx : s.crExits with
    | true =>
      rw [poll_crExit hd hx, State.crExit]
      split
      · exact .line s.rx rfl
      · exact .terminator s.rx .accumulating nofun s.crTime rfl
    | false =>
      cases hr : s.rx with
      | nil => exact .wait (poll_empty hd hx hr)
      | cons c r =>
        rw [poll_consume hd hx hr, State.consume]
        split
        · exact .terminator r .crPending nofun s.now rfl
        · split
          · split
            · exact .line r rfl
            · exact .terminator r .accumulating nofun s.crTime rfl
          · split
            · next hroom => exact .store r c hroom rfl
            · exact .drop r rfl

/-! ### Frames of the commands (R58) -/

/-- Writing the suffix decoder's answer touches COMMA and CKSUM alone (42_frame_codec.md R154). -/
theorem writeSuffix_eq (s : State) (x : Suffix) :
    s.writeSuffix x = { s with
      commaF := (s.writeSuffix x).commaF, commaIdx := (s.writeSuffix x).commaIdx
      cksumVal := (s.writeSuffix x).cksumVal, cksumOvf := (s.writeSuffix x).cksumOvf } := by
  cases x <;> rfl

@[simp] theorem writeSuffix_curOp (s : State) (x : Suffix) : (s.writeSuffix x).curOp = s.curOp := by
  rw [writeSuffix_eq]

@[simp] theorem writeSuffix_lrState (s : State) (x : Suffix) : (s.writeSuffix x).lrState = s.lrState := by
  rw [writeSuffix_eq]

@[simp] theorem writeSuffix_params (s : State) (x : Suffix) : (s.writeSuffix x).params = s.params := by
  rw [writeSuffix_eq]

/-- CRCX and CRCC touch STATUS and CRC alone. -/
theorem crcCommand_eq (s : State) (seed : Half) :
    s.crcCommand seed = { s with
      res := (s.crcCommand seed).res, err := (s.crcCommand seed).err, lrState := (s.crcCommand seed).lrState
      curOp := none, crc := (s.crcCommand seed).crc } := by
  rcases crcCommand_cases s seed with h | h <;> rw [h] <;> rfl

/-- DECODE touches STATUS, COMMA and CKSUM alone. -/
theorem execDecode_eq {s t : State} (h : exec .decode s = .next t) :
    t = { s with
      res := t.res, err := t.err, lrState := t.lrState, curOp := none, commaF := t.commaF, commaIdx := t.commaIdx
      cksumVal := t.cksumVal, cksumOvf := t.cksumOvf } := by
  rcases execDecode_cases h with rfl | ⟨r, rfl⟩
  · rfl
  · rw [writeSuffix_eq]; rfl

/-- VERIFY without a VALID touches STATUS, COMMA, CKSUM and CRC alone. -/
theorem execVerify_eq {s t : State} (h : exec .verify s = .next t) (hres : t.res ≠ .valid) :
    t = { s with
      res := t.res, err := t.err, lrState := t.lrState, curOp := none, commaF := t.commaF, commaIdx := t.commaIdx
      cksumVal := t.cksumVal, cksumOvf := t.cksumOvf, crc := t.crc } := by
  cases execVerify_ends h with
  | range h => rw [h]; rfl
  | refused c r _ h => rw [h, writeSuffix_eq]; rfl
  | valid _ _ _ _ _ h => exact absurd (congrArg State.res h) hres

/-- A command that stores nothing touches STATUS, CRC, COMMA and CKSUM alone. -/
theorem exec_storesNothing {i : Instr} {s t : State}
    (hi : i = .crcx ∨ i = .crcc ∨ i = .decode ∨ (i = .verify ∧ t.res ≠ .valid)) (h : exec i s = .next t) :
    t = { s with
      res := t.res, err := t.err, lrState := t.lrState, curOp := none, commaF := t.commaF, commaIdx := t.commaIdx
      cksumVal := t.cksumVal, cksumOvf := t.cksumOvf, crc := t.crc } := by
  rcases hi with rfl | rfl | rfl | ⟨rfl, hres⟩
  · cases h; rw [crcCommand_eq]
  · cases h; rw [crcCommand_eq]
  · rw [execDecode_eq h]
  · exact execVerify_eq h hres

/-- Settles O20: such a command touches STATUS and the results alone, DECODE not CRC, CRCX and CRCC not COMMA and
CKSUM. -/
theorem commandsThatStoreNothingKeepMemory : Obligations.CommandsThatStoreNothingKeepMemory := by
  intro i s t hi h
  have hdecode : i = .decode → t.crc = s.crc := by
    rintro rfl
    rw [execDecode_eq h]
  have hcrc : i = .crcx ∨ i = .crcc →
      t.commaF = s.commaF ∧ t.commaIdx = s.commaIdx ∧ t.cksumVal = s.cksumVal ∧ t.cksumOvf = s.cksumOvf := by
    rintro (rfl | rfl) <;> cases h <;> rw [crcCommand_eq] <;> exact ⟨rfl, rfl, rfl, rfl⟩
  rw [exec_storesNothing hi h]
  exact ⟨fun _ => rfl, rfl, rfl, rfl, rfl, rfl, rfl, rfl, rfl, rfl, rfl, rfl, rfl, rfl, rfl, rfl, hdecode, hcrc⟩

/-- The comma of a suffix is the last one and lies inside the line (R150). -/
theorem suffix_found_lt {s : State} {k v : Nat} (h : s.suffix = .found k v) :
    lastComma s.line = some k ∧ k < s.len.toNat := by
  obtain ⟨hlast, hk⟩ := decodeSuffix_found_lt h
  exact ⟨hlast, by simpa [State.line] using hk⟩

/-- The frame that ENCODE builds fits OBUF, and its length OLEN (42_frame_codec.md R172). -/
theorem frame_fits {s : State} (hp : s.params.wf = true) (hlen : s.len.toNat ≤ s.params.lbufSize) :
    (BitVec.ofNat 16 (frame s.line s.term).length).toNat = (frame s.line s.term).length ∧
      (frame s.line s.term).length ≤ s.params.obufSize := by
  obtain ⟨-, hhi⟩ := frame_length_bounds s.line s.term
  have hline : s.line.length = s.len.toNat := State.lbufSpan_length ..
  obtain ⟨-, hmax⟩ := params_wf.1 hp
  refine ⟨?_, ?_⟩
  · rw [BitVec.toNat_ofNat, Nat.mod_eq_of_lt (by omega)]
  · rw [Params.obufSize]; omega

/-- Settles O21, by the ends of VERIFY and of ENCODE. -/
theorem storingCommandsChangeOnlyTheirBytes : Obligations.StoringCommandsChangeOnlyTheirBytes := by
  refine fun s t hp => ⟨fun h hres => ?_, fun h hres => ?_⟩
  · cases execVerify_ends h with
    | range h => rw [h] at hres; cases hres
    | refused _ _ hr h => rw [h] at hres; exact absurd hres hr
    | valid k v c _ hx h =>
      obtain ⟨hlast, hk⟩ := suffix_found_lt hx
      rw [writeSuffix_eq] at h
      have hlen : (BitVec.ofNat 16 k).toNat = k := by
        rw [BitVec.toNat_ofNat, Nat.mod_eq_of_lt (by omega)]
      rw [h]
      exact ⟨k, hlast, hlen, State.lbuf_setLbuf_same s k chNUL, fun a ha => State.cell_setLbuf_ne s chNUL ha,
        rfl, rfl, rfl, rfl, rfl, rfl, rfl, rfl, rfl, rfl, rfl, rfl, rfl, rfl⟩
  · rcases execEncode_cases h with rfl | ⟨hlen, rfl⟩
    · cases hres
    · obtain ⟨holen, -⟩ := frame_fits hp hlen
      refine ⟨fun a ha => State.cell_setObufs_out s _ ?_,
        rfl, rfl, rfl, rfl, rfl, rfl, rfl, rfl, rfl, rfl, rfl, rfl, rfl, rfl, rfl, rfl, rfl, rfl⟩
      simpa [holen, obufBase] using ha

/-- A poll iteration touches STATUS, LEN, the line assembler, the port and the buffers alone. -/
theorem poll_eq (s : State) :
    s.poll = { s with
      res := s.poll.res, trunc := s.poll.trunc, len := s.poll.len, curOp := s.poll.curOp
      lrState := s.poll.lrState, lrLen := s.poll.lrLen, crTime := s.poll.crTime, mem := s.poll.mem
      rx := s.poll.rx, sinceSample := s.poll.sinceSample, free := s.poll.free } := by
  cases poll_move s with
  | late h => rw [h]; rfl
  | line _ h => rw [h]; rfl
  | wait h => rw [h]; rfl
  | terminator _ _ _ _ h => rw [h]
  | store _ _ _ h => rw [h]; rfl
  | drop _ h => rw [h]

/-- READLINE touches STATUS, LEN, the line assembler, the port and the buffers alone. -/
theorem execReadline_eq {s t : State} (h : exec .readline s = .next t) :
    t = { s with
      res := t.res, err := t.err, trunc := t.trunc, len := t.len, curOp := t.curOp, lrState := t.lrState
      lrLen := t.lrLen, crTime := t.crTime, mem := t.mem, rx := t.rx, sinceSample := t.sinceSample
      free := t.free } := by
  cases execReadline_move h with
  | range h => rw [h]; rfl
  | start _ _ h => rw [h, poll_eq]
  | poll _ h => rw [h, poll_eq]

/-- A poll iteration writes LBUF[0..SIZE) alone (41_line_reader.md R134, R55). -/
theorem poll_cell {s : State} (hroom : s.lrLen.toNat < s.size.toNat) {a : Nat}
    (ha : a < lbufBase ∨ lbufBase + s.size.toNat ≤ a) : s.poll.cell a = s.cell a := by
  have hne : a ≠ lbufBase + s.lrLen.toNat := by omega
  cases poll_move s with
  | late h => rw [h]; exact State.cell_setLbufs_out s _ (by simpa using ha)
  | line rx h => rw [h]; exact State.cell_setLbuf_ne s chNUL hne
  | wait h => rw [h]; rfl
  | terminator _ _ _ _ h => rw [h]; rfl
  | store rx c _ h => rw [h]; exact State.cell_setLbuf_ne s c hne
  | drop _ h => rw [h]; rfl

/-- READLINE writes LBUF[0..SIZE) alone. -/
theorem execReadline_cell {s t : State} (h : exec .readline s = .next t)
    (hroom : s.lrState = .idle ∨ s.lrLen.toNat < s.size.toNat) {a : Nat}
    (ha : a < lbufBase ∨ lbufBase + s.size.toNat ≤ a) : t.cell a = s.cell a := by
  cases execReadline_move h with
  | range h => rw [h]; rfl
  | start hlo _ h =>
    rw [h]
    exact poll_cell (s := { s with lrState := .accumulating, lrLen := 0 }) hlo ha
  | poll hst h => rw [h]; exact poll_cell (hroom.resolve_left hst) ha

/-- Settles O28: the bytes by `execReadline_cell`, the port and the registers by the frames. -/
theorem readlineWritesOnlyItsLine : Obligations.ReadlineWritesOnlyItsLine := by
  intro s t hroom h
  have hcell (a : Nat) := execReadline_cell h hroom (a := a)
  obtain ⟨hframe, -⟩ := exec_frame h
  have hrx := hframe.rx
  rw [execReadline_eq h] at hcell ⊢
  exact ⟨hcell, hrx, rfl, rfl, rfl, rfl, rfl, rfl, rfl, rfl, rfl, rfl, rfl, rfl, rfl, rfl, rfl⟩

end Sys2Proof.Machine

namespace Sys2Proof.Machine

/-! ### The invariant under the shared updates -/

/-- The fields of which the invariant says nothing may change. -/
theorem State.Inv.congr {s t : State} (h : s.Inv)
    (ht : t = { s with
      ovr := t.ovr, trunc := t.trunc, t0 := t.t0, tmo := t.tmo, len := t.len, aOff := t.aOff, aCnt := t.aCnt
      crc := t.crc, cksumVal := t.cksumVal, cksumOvf := t.cksumOvf, term := t.term, crTime := t.crTime
      rx := t.rx, now := t.now, sinceSample := t.sinceSample, host := t.host, env := t.env }) : t.Inv := by
  rw [ht]; exact { h with }

/-- The line assembler is active during READLINE alone. -/
theorem State.Inv.idle {s : State} (h : s.Inv) (hc : s.curOp ≠ some (encode .readline)) : s.lrState = .idle :=
  Classical.byContradiction fun hl => hc (h.reader hl).1

theorem resetWith_inv {p : Params} (hp : p.wf = true) : (State.resetWith p).Inv where
  params := hp
  memory := rfl
  buffers := nofun
  legal := nofun
  reader hl := absurd rfl hl
  pending hc := absurd rfl hc
  unseen hc := absurd rfl hc
  errNoRes _ := rfl
  comma _ := rfl
  olen := Nat.zero_le _
  draws := Nat.zero_lt_one

/-- RST draws the buffers anew and counts the draw (log 16). -/
theorem State.Inv.rst {s : State} (h : s.Inv) : s.rst.Inv :=
  { resetWith_inv h.params with draws := Nat.lt_succ_self _ }

theorem State.Inv.raise {s : State} (h : s.Inv) (e : Err) : (s.raise e).Inv :=
  { h with
    legal := nofun
    reader := fun hl => absurd rfl hl
    pending := fun hc => absurd rfl hc
    unseen := fun hc => absurd rfl hc
    errNoRes := fun _ => rfl }

/-- A command ends with a result where the line assembler is idle: no error stands while it runs. -/
theorem State.Inv.finish {s : State} (h : s.Inv) (hc : s.curOp ≠ none) (hl : s.lrState = .idle) (r : Res) :
    (s.finish r).Inv :=
  { h with
    legal := nofun
    reader := fun hne => absurd hl hne
    pending := fun hne => absurd rfl hne
    unseen := fun hne => absurd rfl hne
    errNoRes := fun he => absurd (h.pending hc).2 he }

/-- A write inside LBUF or OBUF keeps the memory's canonical form and bounds. -/
theorem State.Inv.setAll {s : State} (h : s.Inv) {a : Nat} {bs : List Byte}
    (hin : ∀ b, a ≤ b → b < a + bs.length → inBuffers s.params b) :
    ({ s with mem := s.mem.setAll a bs } : State).Inv :=
  { h with
    memory := Memory.wf_setAll h.memory a bs
    buffers := fun c hc => (Memory.mem_setAll hc).elim (fun hb => hin c.1 hb.1 hb.2) (h.buffers c) }

theorem State.Inv.setLbufs {s : State} (h : s.Inv) {i : Nat} {bs : List Byte}
    (hin : i + bs.length ≤ s.params.lbufSize) : (s.setLbufs i bs).Inv :=
  h.setAll fun _ _ _ => .inl ⟨by omega, by omega⟩

theorem State.Inv.setLbuf {s : State} (h : s.Inv) {i : Nat} (hin : i < s.params.lbufSize) (b : Byte) :
    (s.setLbuf i b).Inv :=
  h.setLbufs (bs := [b]) hin

theorem State.Inv.setObufs {s : State} (h : s.Inv) {i : Nat} {bs : List Byte}
    (hin : i + bs.length ≤ s.params.obufSize) : (s.setObufs i bs).Inv :=
  h.setAll fun _ _ _ => .inr ⟨by omega, by omega⟩

/-! ### The invariant under the commands -/

/-- The suffix decoder answers offset 0 where it finds no comma (10_state.md R32). -/
theorem State.Inv.writeSuffix {s : State} (h : s.Inv) : (s.writeSuffix s.suffix).Inv := by
  cases hx : s.suffix with
  | found k v => exact { h with comma := nofun }
  | notFound f k => exact { h with comma := fun hf => by rw [show k = 0 from decodeSuffix_notFound hx hf]; rfl }

theorem crcCommand_inv {s : State} (h : s.Inv) (hc : s.curOp ≠ none) (hl : s.lrState = .idle) (seed : Half) :
    (s.crcCommand seed).Inv := by
  rcases crcCommand_cases s seed with e | e <;> rw [e]
  · exact h.raise .range
  · exact (h.finish hc hl .done).congr rfl

theorem execDecode_inv {s t : State} (h : s.Inv) (hc : s.curOp ≠ none) (hl : s.lrState = .idle)
    (ht : exec .decode s = .next t) : t.Inv := by
  rcases execDecode_cases ht with rfl | ⟨r, rfl⟩
  · exact h.raise .range
  · exact h.writeSuffix.finish (by simpa) (by simpa) r

theorem execVerify_inv {s t : State} (h : s.Inv) (hc : s.curOp ≠ none) (hl : s.lrState = .idle)
    (ht : exec .verify s = .next t) : t.Inv := by
  have hfin (r : Res) : ((s.writeSuffix s.suffix).finish r).Inv := h.writeSuffix.finish (by simpa) (by simpa) r
  cases execVerify_ends ht with
  | range e => rw [e]; exact h.raise .range
  | refused c r _ e => rw [e]; exact (hfin r).congr rfl
  | valid k v c hlen hx e =>
    obtain ⟨-, hk⟩ := suffix_found_lt hx
    have hin : k < (s.writeSuffix s.suffix).params.lbufSize := by rw [writeSuffix_params]; omega
    rw [e]
    exact ((hfin .valid).setLbuf hin chNUL).congr rfl

theorem execEncode_inv {s t : State} (h : s.Inv) (hc : s.curOp ≠ none) (hl : s.lrState = .idle)
    (ht : exec .encode s = .next t) : t.Inv := by
  rcases execEncode_cases ht with rfl | ⟨hlen, rfl⟩
  · exact h.raise .range
  · obtain ⟨holen, hfits⟩ := frame_fits h.params hlen
    have hout := (h.finish hc hl .done).setObufs (i := 0) (bs := frame s.line s.term) (by simpa using hfits)
    exact { hout with olen := holen.le.trans hfits }

/-- A poll iteration of a started READLINE stores below SIZE, so inside LBUF, and keeps LR_LEN below SIZE
(41_line_reader.md R134). -/
theorem poll_inv {s : State} (h : s.Inv) (hl : s.lrState ≠ .idle) : s.poll.Inv := by
  obtain ⟨hop, hlo, hhi, hlen⟩ := h.reader hl
  have hc : s.curOp ≠ none := by rw [hop]; nofun
  have hidle : ({ s with lrState := .idle } : State).Inv := { h with reader := fun hne => absurd rfl hne }
  cases poll_move s with
  | late e =>
    rw [e]
    have hmem := (hidle.finish hc rfl .timeout).setLbufs (i := 0)
      (bs := (List.range s.size.toNat).map fun i => Config.freeByte s.free (lbufBase + i)) (by simpa using hhi)
    exact { hmem with draws := Nat.lt_succ_of_lt h.draws }
  | line rx e =>
    rw [e]
    exact ((hidle.finish hc rfl .line).setLbuf (i := s.lrLen.toNat) (Nat.lt_of_lt_of_le hlen hhi) chNUL).congr rfl
  | wait e => rw [e]; exact h.congr rfl
  | terminator rx st hst t e => rw [e]; exact { h with reader := fun _ => ⟨hop, hlo, hhi, hlen⟩ }
  | store rx c hroom e =>
    have hnext : (s.lrLen + 1).toNat < s.size.toNat := by bv_omega
    rw [e]
    have hcount : ({ s with rx := rx, lrLen := s.lrLen + 1, sinceSample := some 0 } : State).Inv :=
      { h with reader := fun _ => ⟨hop, hlo, hhi, hnext⟩ }
    exact hcount.setLbuf (Nat.lt_of_lt_of_le hlen hhi) c
  | drop rx e => rw [e]; exact h.congr rfl

theorem execReadline_inv {s t : State} (h : s.Inv) (hop : s.curOp = some (encode .readline))
    (ht : exec .readline s = .next t) : t.Inv := by
  cases execReadline_move ht with
  | range e => rw [e]; exact h.raise .range
  | start hlo hhi e =>
    rw [e]
    have hstart : ({ s with lrState := .accumulating, lrLen := 0 } : State).Inv :=
      { h with reader := fun _ => ⟨hop, hlo, hhi, hlo⟩ }
    exact poll_inv hstart nofun
  | poll hst e => rw [e]; exact poll_inv h hst

/-- The latched command's block step keeps the invariant. -/
theorem exec_inv {i : Instr} {w : Word} {s t : State} (h : s.Inv) (hw : s.curOp = some w)
    (hi : decodeWord w = .ok i) (ht : exec i s = .next t) : t.Inv := by
  by_cases hr : i = .readline
  · subst hr
    exact execReadline_inv h (by rw [hw, word_of_decode_readline hi]) ht
  · have hc : s.curOp ≠ none := by rw [hw]; nofun
    have hl : s.lrState = .idle := by
      refine h.idle fun e => hr ?_
      obtain rfl : w = encode .readline := by simpa [hw] using e
      cases hi; rfl
    cases i with
    | crcx => cases ht; exact crcCommand_inv h hc hl _
    | crcc => cases ht; exact crcCommand_inv h hc hl _
    | readline => exact absurd rfl hr
    | decode => exact execDecode_inv h hc hl ht
    | verify => exact execVerify_inv h hc hl ht
    | encode => exact execEncode_inv h hc hl ht

theorem blockStep_inv {s t : State} (h : s.Inv) (ht : blockStep s = .next t) : t.Inv := by
  cases hw : s.curOp with
  | none => rw [blockStep_idle hw] at ht; cases ht; exact h
  | some w =>
    obtain ⟨i, hi⟩ := h.legal w hw
    rw [blockStep_latched hw hi] at ht
    exact exec_inv h hw hi ht

/-! ### The invariant under the host's accesses -/

/-- A read never takes a draw back (log 9). -/
theorem busRead_free_le (s : State) (a : Nat) (w : Width) : s.free ≤ (s.busRead a w).free := by
  have any (v : Word) : s.free ≤ (s.returnedAny v).free := by
    rw [returnedAny_eq]; dsimp only; split <;> omega
  unfold State.busRead
  split
  · split
    · exact Nat.le_refl _
    · split
      · exact any _
      · split_ifs <;> exact Nat.le_refl _
  · split
    · exact any _
    · exact Nat.le_refl _
  · split
    · exact any _
    · exact Nat.le_refl _
  · exact Nat.le_refl _

/-- A read settles results where the block is idle alone (R59). -/
theorem busRead_inv {s : State} (h : s.Inv) (a : Nat) (w : Width) : (s.busRead a w).Inv := by
  have hunseen : s.curOp ≠ none → (s.busRead a w).unsettled = true := by
    intro hc
    rcases busRead_unsettled s a w with hk | ⟨-, hidle, -⟩
    · rw [hk, h.unseen hc]
    · exact absurd hidle hc
  have hdraws := Nat.lt_of_lt_of_le h.draws (busRead_free_le s a w)
  rw [busRead_eq]
  exact { h with unseen := hunseen, draws := hdraws }

/-- A CMD write to an idle block latches a legal word, or raises ILLEGAL (R37, R70). -/
theorem accept_inv {s : State} (h : s.Inv) (hc : s.curOp = none) (v : Word) : (s.accept v).Inv := by
  have hl : s.lrState = .idle := h.idle (by rw [hc]; nofun)
  have hdraws : s.ramDraw < s.free + 1 := Nat.lt_succ_of_lt h.draws
  cases hv : decodeWord v with
  | ok i =>
    rw [accept_legal hv]
    exact { h with
      legal := fun w hw => ⟨i, by cases hw; exact hv⟩
      reader := fun hne => absurd hl hne
      pending := fun _ => ⟨rfl, rfl⟩
      unseen := fun _ => rfl
      errNoRes := fun _ => rfl
      draws := hdraws }
  | error r =>
    rw [accept_illegal (by simp [hv])]
    exact { h.raise .illegal with unseen := fun hne => absurd rfl hne, draws := hdraws }

theorem setOperand_inv {s : State} (h : s.Inv) (hc : s.curOp = none) (r : Reg) (v : Word) :
    (s.setOperand r v).Inv := by
  have hl : s.lrState = .idle := h.idle (by rw [hc]; nofun)
  cases r with
  | size => exact { h with reader := fun hne => absurd hl hne }
  | _ => exact h.congr rfl

theorem writeReg_inv {s : State} (h : s.Inv) (r : Reg) (v : Word) : (s.writeReg r v).Inv := by
  by_cases hr : r = .cmd
  · subst hr
    simp only [State.writeReg]
    split
    · exact h.congr rfl
    · next hb => exact accept_inv h (by simpa using hb) v
  · by_cases hc : s.curOp = none
    · rw [writeReg_operand hr hc]; exact setOperand_inv h hc r v
    · rw [writeReg_busy hc hr]; exact h

/-- The window write, byte by byte, stays inside LBUF (R55). -/
theorem memWrite_inv {s : State} (h : s.Inv) (a : Nat) (v : Word) (n : Nat) : (s.memWrite a v n).Inv := by
  induction n with
  | zero => exact h
  | succ n ih =>
    rw [State.memWrite, State.writeLane]
    split
    · next hin => exact ih.setLbuf (by omega) _
    · exact ih

theorem busWrite_inv {s : State} (h : s.Inv) (a : Nat) (w : Width) (v : Word) : (s.busWrite a w v).Inv := by
  unfold State.busWrite
  split
  · split
    · exact h
    · exact writeReg_inv h _ v
  · split
    · exact h
    · exact memWrite_inv h a v _
  · exact h
  · exact h

theorem busAccess_inv {s t : State} {x : Access} (h : s.Inv) (ht : busAccess s x = .next t) : t.Inv := by
  cases x <;> simp only [busAccess] at ht <;> split at ht <;> cases ht
  · exact busRead_inv h _ _
  · exact busWrite_inv h _ _ _

theorem hostStep_inv {s t : State} (h : s.Inv) (ht : hostStep s = .next t) : t.Inv := by
  rcases hostStep_cases ht with ⟨x, ops, -, hx⟩ | ⟨ops, f, -, rfl⟩ | ⟨-, f, rfl⟩
  · exact busAccess_inv (s := { s with host := { s.host with script := ops } }) (h.congr rfl) hx
  · exact (busRead_inv h _ _).congr rfl
  · exact h.congr rfl

/-! ### The step -/

theorem hostStep_params {s t : State} (h : hostStep s = .next t) : t.params = s.params := by
  obtain ⟨f, u, hu, ht⟩ := hostStep_frame h
  rw [ht]; exact hu.params

/-- Settles O47, move by move: the block's step by `blockStep_inv`, the host's by `hostStep_inv`, the others touch
nothing that the invariant speaks of, or reset the block. -/
theorem stepKeepsInvariant : Obligations.StepKeepsInvariant := by
  intro s t h
  cases step_move h with
  | block rest _ h =>
    obtain ⟨hf, -, -⟩ := blockStep_frame h
    exact ⟨hf.params, fun hs => blockStep_inv (s := { s with env := rest }) (hs.congr rfl) h⟩
  | host rest _ h =>
    have hp := hostStep_params h
    exact ⟨hp, fun hs => hostStep_inv (s := { s with env := rest }) (hs.congr rfl) h⟩
  | world h => exact ⟨by rw [h], fun hs => hs.congr (by rw [h])⟩
  | arrive bs rest _ h => exact ⟨by rw [h], fun hs => hs.congr (by rw [h])⟩
  | rst rest _ h => rw [h]; exact ⟨rfl, fun hs => State.Inv.rst (s := { s with env := rest }) (hs.congr rfl)⟩

end Sys2Proof.Machine

namespace Sys2Proof.Machine

/-! ### Alignment and the windows (R51 to R53) -/

/-- An access that breaks the alignment rule is a host fault (R53, R204). -/
theorem busAccess_misaligned {a : BitVec 14} {w : Width} (h : ¬ aligned a.toNat w = true) (s : State) (v : Word) :
    busAccess s (.read a w) = .fault (.hostAccess (.read a w)) ∧
      busAccess s (.write a w v) = .fault (.hostAccess (.write a w v)) := ⟨if_neg h, if_neg h⟩

/-- Settles O39: what the statement calls good is `aligned`. -/
theorem misalignedAccessesFault : Obligations.MisalignedAccessesFault := by
  intro s a w v ha good
  have hgood : good ↔ aligned a.toNat w = true := by
    rw [aligned_iff ha]
    cases w <;> exact Iff.rfl
  rw [hgood]
  exact ⟨fun h => ⟨_, _, busAccess_read h s, busAccess_write h s v⟩, fun h => busAccess_misaligned h s v⟩

/-- An idle block with settled results answers a window read with `MemRead` (R52, R59). -/
theorem busRead_window {s : State} (hu : s.unstable = false) {a : Nat} (hlo : 0x1000 ≤ a) (hhi : a < 0x3000)
    (w : Width) : s.busRead a w = s.returned (s.memRead a (widthBytes w)) := by
  by_cases h : a < 0x2000
  · simp [State.busRead, regionOf_lbuf hlo h, hu]
  · simp [State.busRead, regionOf_obuf (Nat.le_of_not_lt h) hhi, hu]

/-- A byte of the LBUF window (R51). -/
theorem windowByte_lbuf (s : State) {x : Nat} (hlo : 0x1000 ≤ x) (hhi : x < 0x2000) :
    s.windowByte x = if x - 0x1000 < s.params.lbufSize then s.lbuf (x - 0x1000) else 0 := by
  obtain ⟨i, rfl⟩ := Nat.exists_eq_add_of_le hlo
  have hobuf : ¬ (obufBase ≤ 0x1000 + i ∧ 0x1000 + i < obufBase + s.params.obufSize) := by
    rw [obufBase]; omega
  simp [State.windowByte, hobuf, lbufBase, State.lbuf]

/-- A byte of the OBUF window (R51). -/
theorem windowByte_obuf {s : State} (hp : s.params.wf = true) {x : Nat} (hlo : 0x2000 ≤ x) :
    s.windowByte x = if x - 0x2000 < s.params.lbufSize + 7 then s.obuf (x - 0x2000) else 0 := by
  obtain ⟨i, rfl⟩ := Nat.exists_eq_add_of_le hlo
  obtain ⟨-, hmax⟩ := params_wf.1 hp
  have hlbuf : ¬ (lbufBase ≤ 0x2000 + i ∧ 0x2000 + i < lbufBase + s.params.lbufSize) := by
    rw [lbufBase]; omega
  simp [State.windowByte, hlbuf, obufBase, State.obuf, Params.obufSize]

/-- Settles O40: `memRead_byte` and the window's bytes, an aligned access staying in its window. -/
theorem windowReadsAreLittleEndian : Obligations.WindowReadsAreLittleEndian := by
  intro s a w hc hu hp hal hlo hhi
  refine ⟨s.memRead a.toNat (widthBytes w), ?_, fun k _ => ?_⟩
  · rw [busAccess_read hal, busRead_window (stable_of hc hu) hlo hhi]; rfl
  · rw [memRead_byte s a.toNat _ k (widthBytes_le w)]
    change (if widthBytes w ≤ k then _ else _) = if widthBytes w ≤ k then _ else _
    split
    · rfl
    · next hk =>
      obtain ⟨hpage, -⟩ := aligned_in_page hal hlo hhi (Nat.lt_of_not_le hk)
      split
      · next h => exact windowByte_lbuf s (by omega) (hpage.1 h)
      · exact windowByte_obuf hp (by omega)

/-- A window write touches the buffers alone. -/
theorem memWrite_eq (s : State) (a : Nat) (v : Word) (n : Nat) :
    s.memWrite a v n = { s with mem := (s.memWrite a v n).mem } := by
  induction n with
  | zero => rfl
  | succ n ih =>
    rw [State.memWrite, State.writeLane]
    split
    · rw [ih]; rfl
    · exact ih

/-- One byte of a window write lands where it lies in LBUF, and leaves every other byte (R51). -/
theorem writeLane_cell (s : State) (a : Nat) (b : Byte) (x : Nat) :
    (s.writeLane a b).cell x =
      if x = a ∧ lbufBase ≤ a ∧ a < lbufBase + s.params.lbufSize then b else s.cell x := by
  unfold State.writeLane
  split
  · next hin =>
    obtain ⟨i, rfl⟩ := Nat.exists_eq_add_of_le hin.1
    rw [Nat.add_sub_cancel_left]
    by_cases hx : x = lbufBase + i
    · rw [if_pos ⟨hx, hin⟩, hx]; exact State.lbuf_setLbuf_same s i b
    · rw [if_neg (fun h => hx h.1)]; exact State.cell_setLbuf_ne s b hx
  · next hout => rw [if_neg (fun h => hout h.2)]

/-- The bytes of LBUF that a window write covers are those of the value, least significant first (R52). -/
theorem memWrite_cell (s : State) (a : Nat) (v : Word) (n x : Nat) :
    (s.memWrite a v n).cell x =
      if a ≤ x ∧ x < a + n ∧ lbufBase ≤ x ∧ x < lbufBase + s.params.lbufSize
      then v.extractLsb' (8 * (x - a)) 8 else s.cell x := by
  induction n with
  | zero => rw [if_neg (by omega)]; rfl
  | succ n ih =>
    have hp : (s.memWrite a v n).params = s.params := by rw [memWrite_eq]
    rw [State.memWrite, writeLane_cell, hp, ih]
    by_cases hx : x = a + n
    · subst hx
      simp
    · have hlast : ¬ (x = a + n ∧ lbufBase ≤ a + n ∧ a + n < lbufBase + s.params.lbufSize) := fun h => hx h.1
      rw [if_neg hlast]
      exact if_congr (by omega) rfl rfl

/-- Settles O41: an idle write to the LBUF window is `State.memWrite`, whose bytes `memWrite_cell` gives. -/
theorem windowWritesAreLittleEndian : Obligations.WindowWritesAreLittleEndian := by
  intro s a w v hc hp hal hlo hhi
  refine ⟨(s.memWrite a.toNat v (widthBytes w)).mem, ?_, fun x => ?_⟩
  · rw [busAccess_write hal, ← memWrite_eq]
    simp [State.busWrite, regionOf_lbuf hlo hhi, hc]
  · rw [← memWrite_eq, memWrite_cell]
    refine if_congr ?_ rfl rfl
    change _ ↔ _ ∧ x < a.toNat + widthBytes w ∧ _
    rw [lbufBase]
    omega

/-! ### Reads have no side effect (R54) -/

theorem ofOffset_now {a : Nat} (h : Reg.ofOffset a = some .now) : a = 0x034 := by
  unfold Reg.ofOffset at h
  split at h <;> simp_all

/-- What an idle block returns depends on neither the host nor the schedule, on the port at STATUS alone, and on
the clock at NOW alone. -/
theorem busRead_rdata_congr {s u : State}
    (hu : u = { s with rx := u.rx, now := u.now, sinceSample := u.sinceSample, host := u.host, env := u.env })
    {a : Nat} (hrx : a = 0x004 → u.rx = s.rx) (hnow : a = 0x034 → u.now = s.now) (w : Width) :
    (u.busRead a w).host.rdata = (s.busRead a w).host.rdata := by
  have hstable : u.unstable = s.unstable := by rw [hu]; rfl
  have hany (n : Nat) : u.anyRead a n = s.anyRead a n := by rw [hu]; rfl
  have hmem (n : Nat) : u.memRead a n = s.memRead a n := by rw [hu]; rfl
  cases hreg : regionOf a with
  | regs =>
    cases hr : Reg.ofOffset a with
    | none => simp only [State.busRead, hreg, hr]; rfl
    | some r =>
      rw [busRead_reg hreg hr, busRead_reg hreg hr, hstable]
      by_cases hfree : (s.unstable && r.isResult) = true
      · rw [if_pos hfree, if_pos hfree]
        change u.anyReg r = s.anyReg r
        rw [hu]
        cases r with
        | status | now => simp [Reg.isResult] at hfree
        | _ => rfl
      · rw [if_neg hfree, if_neg hfree]
        cases r with
        | now => exact hnow (ofOffset_now hr)
        | status =>
          change u.statusWord = s.statusWord
          rw [hu, hrx (ofOffset_status hr)]; rfl
        | _ => rw [hu]; rfl
  | lbuf => simp only [State.busRead, hreg, hstable, hany, hmem]; split <;> rfl
  | obuf => simp only [State.busRead, hreg, hstable, hany, hmem]; split <;> rfl
  | reserved => simp only [State.busRead, hreg]; rfl

/-- Settles O44: the frame of a read, and `busRead_rdata_congr` for its value. -/
theorem readsHaveNoSideEffect : Obligations.ReadsHaveNoSideEffect := by
  refine ⟨fun s t a w h => ?_, fun s t u a w hc hu hrx hnow h => ?_⟩
  · simp only [busAccess] at h
    split at h <;> cases h
    refine ⟨busRead_eq s a.toNat w, ?_, fun hc => busRead_idle_free hc _ w⟩
    exact (busRead_unsettled s a.toNat w).imp_right fun ⟨ha, hc, hk⟩ => ⟨BitVec.eq_of_toNat_eq ha, hc, hk⟩
  · simp only [busAccess] at h ⊢
    split at h <;> cases h
    next hal =>
    exact ⟨_, if_pos hal, busRead_rdata_congr hu (fun ha => hrx (BitVec.eq_of_toNat_eq ha))
      (fun ha => hnow (BitVec.eq_of_toNat_eq ha)) w⟩

/-! ### Who writes a byte (R58) -/

/-- A host step changes a byte of LBUF alone, on an idle block. -/
theorem hostStep_cell {s t : State} (h : hostStep s = .next t) {a : Nat} (ha : t.cell a ≠ s.cell a) :
    s.curOp = none ∧ 0x1000 ≤ a ∧ a < 0x1000 + s.params.lbufSize := by
  refine ⟨Classical.byContradiction fun hc => ha ?_, ?_⟩
  · rw [hostStep_busy hc h]; rfl
  · obtain ⟨f, u, hu, ht⟩ := hostStep_frame h
    rw [ht] at ha
    exact hu.cell a ha

/-- Settles O51, move by move. -/
theorem bufferBytesChangeOnlyByTheirWriters : Obligations.BufferBytesChangeOnlyByTheirWriters := by
  intro s t a _ h ha
  cases step_move h with
  | block rest henv h =>
    refine .inr (.inl ⟨fun hc => ha ?_, henv⟩)
    rw [blockStep_idle (s := { s with env := rest }) hc] at h
    cases h; rfl
  | host rest henv h =>
    obtain ⟨hc, hin⟩ := hostStep_cell h ha
    exact .inr (.inr ⟨hc, by simp [henv], hin⟩)
  | world h => rw [h] at ha; exact absurd rfl ha
  | arrive _ _ _ h => rw [h] at ha; exact absurd rfl ha
  | rst _ henv _ => exact .inl (by simp [henv])

end Sys2Proof.Machine

namespace Sys2Proof.Machine

/-! ## Proofs: command words and the pseudo-operation load (30_encoding.md) -/

/-! ### The fields of a word (R71) -/

theorem packWord_toNat (var : BitVec 1) (opc : BitVec 4) :
    (packWord var opc).toNat = 256 * var.toNat + opc.toNat := by
  revert var opc; decide

/-- A word with its reserved bits clear is its two fields put together. -/
theorem packWord_varOf_opcOf {w : Word} (h : reservedClear w = true) : packWord (varOf w) (opcOf w) = w := by
  have hclear := (reservedClear_iff w).1 h
  apply BitVec.eq_of_toNat_eq
  rw [packWord_toNat, varOf_toNat, opcOf_toNat]
  omega

theorem extractLsb'_eq_zero_iff (w : Word) (start len : Nat) :
    w.extractLsb' start len = 0#len ↔ ∀ k, start ≤ k → k < start + len → w.getLsbD k = false := by
  constructor
  · intro h k hk hk'
    have hbit := congrArg (BitVec.getLsbD · (k - start)) h
    simpa [BitVec.getLsbD_extractLsb', show k - start < len by omega, Nat.add_sub_cancel' hk] using hbit
  · intro h
    ext k hk
    simp [h (start + k) (by omega) (by omega)]

/-- The reserved bits of R71, one by one. -/
theorem reservedClear_iff_getLsbD (w : Word) : reservedClear w = true ↔
    ∀ k, ((4 ≤ k ∧ k ≤ 7) ∨ (9 ≤ k ∧ k ≤ 31)) → w.getLsbD k = false := by
  simp only [reservedClear, Bool.and_eq_true, beq_iff_eq, extractLsb'_eq_zero_iff]
  constructor
  · rintro ⟨hlow, hhigh⟩ k (⟨hk, hk'⟩ | ⟨hk, hk'⟩)
    · exact hlow k hk (by omega)
    · exact hhigh k hk (by omega)
  · intro h
    exact ⟨fun k hk hk' => h k (.inl ⟨hk, by omega⟩), fun k hk hk' => h k (.inr ⟨hk, by omega⟩)⟩

/-- R74's "any reserved bit set". -/
theorem not_reservedClear_iff (w : Word) : ¬ reservedClear w = true ↔
    ∃ k, ((4 ≤ k ∧ k ≤ 7) ∨ (9 ≤ k ∧ k ≤ 31)) ∧ w.getLsbD k = true := by
  simp [reservedClear_iff_getLsbD]

/-! ### The decoder (R73, R74) -/

theorem decodeWord_encode (i : Instr) : decodeWord (encode i) = .ok i := by cases i <;> rfl

/-- Of the 32 words whose reserved bits are clear, a command is read from its own word alone. -/
theorem packWord_eq_encode {var : BitVec 1} {opc : BitVec 4} {i : Instr}
    (h : decodeWord (packWord var opc) = .ok i) : packWord var opc = encode i := by
  cases i <;> revert var opc <;> decide

/-- The decoder is the inverse of the encoder. -/
theorem decodeWord_ok_iff (w : Word) (i : Instr) : decodeWord w = .ok i ↔ w = encode i := by
  refine ⟨fun h => ?_, fun h => h ▸ decodeWord_encode i⟩
  by_cases hr : reservedClear w = true
  · rw [← packWord_varOf_opcOf hr] at h ⊢
    exact packWord_eq_encode h
  · rw [decodeWord, if_neg hr] at h
    cases h

/-- Settles O1, by `decodeWord_ok_iff`: the literals are the words that `encode` packs. -/
theorem decodeReadsExactlyTheLegalWords : Obligations.DecodeReadsExactlyTheLegalWords := by
  intro w i
  cases i <;> exact decodeWord_ok_iff w _

/-- Which of the words with clear reserved bits are refused, branch by branch of the decoder. -/
theorem decodeWord_error_iff_of_reservedClear {w : Word} (h : reservedClear w = true) :
    (∃ r, decodeWord w = .error r) ↔
      ((opcOf w).toNat = 0 ∨ 6 ≤ (opcOf w).toNat ∨ ((varOf w).toNat = 1 ∧ (opcOf w).toNat ≠ 1)) := by
  have hvar : (varOf w).toNat < 2 := (varOf w).isLt
  rw [decodeWord, if_pos h]
  split <;>
    simp only [reduceCtorEq, exists_false, false_iff, Except.error.injEq, exists_eq', true_iff, imp_false] at * <;>
    omega

/-- Settles O2: a reserved bit refuses the word by itself, and without one OPC and VAR decide. -/
theorem decodeRefusesIllegalWords : Obligations.DecodeRefusesIllegalWords := by
  intro w
  have hvar : w.getLsbD 8 = true ↔ (varOf w).toNat = 1 := by
    simp [varOf_toNat, BitVec.getLsbD, Nat.testBit_eq_decide_div_mod_eq]
  rw [← not_reservedClear_iff, hvar, ← opcOf_toNat]
  by_cases hr : reservedClear w = true
  · rw [decodeWord_error_iff_of_reservedClear hr]
    simp [hr]
  · have hrefused : decodeWord w = .error .reservedBit := by rw [decodeWord, if_neg hr]
    simp [hr, hrefused]

/-- Settles O3: the legal words by `decodeWord_encode`, the illegal ones by evaluation. -/
theorem writtenOutWordsDecode : Obligations.WrittenOutWordsDecode :=
  ⟨decodeWord_encode .crcx, decodeWord_encode .crcc, decodeWord_encode .readline, decodeWord_encode .decode,
    decodeWord_encode .verify, decodeWord_encode .encode, rfl, rfl, rfl⟩

/-! ### The pseudo-operation load (R76, R77) -/

/-- The lines `wrb LBUF[i], bs[0]; wrb LBUF[i+1], bs[1]; ...` on an idle block. -/
theorem hostRun_wrbs {s : State} {i : Nat} {bs : List Byte} {rest : List ScriptOp} (hp : s.params.wf = true)
    (hc : s.curOp = none) (hfit : i + bs.length ≤ s.params.lbufSize)
    (hs : s.host.script = opWrbs i bs ++ rest) :
    hostRun bs.length s = .next { s.setLbufs i bs with host := { s.host with script := rest } } := by
  induction bs generalizing s i with
  | nil => obtain rfl : rest = s.host.script := hs.symm; rfl
  | cons b bs ih =>
    rw [List.length_cons] at hfit
    have hstep := hostStep_wrb hp hc (by omega) (rest := opWrbs (i + 1) bs ++ rest) hs
    have hfit' : i + 1 + bs.length ≤ s.params.lbufSize := by omega
    have hrest := ih (s := { s.setLbuf i b with host := { s.host with script := opWrbs (i + 1) bs ++ rest } })
      hp hc hfit' rfl
    exact (hostRun_step hstep _).trans hrest

/-- `wr REG, v` of an operand register on an idle block. -/
theorem hostStep_wr_operand {s : State} {r : Reg} {v : Word} {rest : List ScriptOp} (hr : r ≠ .cmd)
    (hc : s.curOp = none) (hs : s.host.script = opWr r v :: rest) :
    hostStep s = .next ({ s with host := { s.host with script := rest } }.setOperand r v) := by
  rw [hostStep_wr hs, writeReg_operand hr (by exact hc)]

/-- The lines of `load "s"` on an idle block. -/
theorem hostRun_load {s : State} {p : List Byte} {rest : List ScriptOp} (hp : s.params.wf = true)
    (hc : s.curOp = none) (hfit : p.length ≤ s.params.lbufSize) (hs : s.host.script = opLoad p ++ rest) :
    hostRun (p.length + 1) s = .next { s.setLbufs 0 p with
      len := BitVec.ofNat 16 p.length, host := { s.host with script := rest } } := by
  have hs : s.host.script = opWrbs 0 p ++ opWr .len (BitVec.ofNat 32 p.length) :: rest := by simpa [opLoad] using hs
  have hlen : (BitVec.ofNat 32 p.length).setWidth 16 = BitVec.ofNat 16 p.length := by simp
  have hbytes := hostRun_wrbs hp hc (by omega) hs
  rw [hostRun_add _ 1 _ _ hbytes, hostRun_step (hostStep_wr_operand (by decide) (by exact hc) rfl) 0, ← hlen]
  rfl

theorem lbufSpan_setLbufs (s : State) (i : Nat) (bs : List Byte) :
    (s.setLbufs i bs).lbufSpan i bs.length = bs := by
  apply List.ext_getElem
  · simp
  · intro j _ hj
    rw [State.lbufSpan_getElem, State.lbuf_setLbufs_in s bs hj]

/-- Settles O54: `hostRun_load` gives the state, the laws of `setLbufs` its bytes. -/
theorem loadStoresTheString : Obligations.LoadStoresTheString := by
  intro s p tail hp hc hfit hs
  exact ⟨(s.setLbufs 0 p).mem, hostRun_load hp hc hfit hs, lbufSpan_setLbufs s 0 p,
    fun a ha => s.cell_setLbufs_out p ha⟩

end Sys2Proof.Machine

namespace Sys2Proof.Machine

/-! ## Proofs: the CRC unit (40_crc.md) -/

/-! ### The remainder modulo the generator (R100, R103, R104)

Modulo the generator one turn of the loop multiplies the register by `X`, so a byte step multiplies it by `X ^ 8` and
adds the byte times `X ^ 16`. -/

section Remainder
open Polynomial

/-- The generator `x^16 + x^12 + x^5 + 1` over GF(2) (R100). -/
noncomputable def crcGenerator : (ZMod 2)[X] := X ^ 16 + X ^ 12 + X ^ 5 + 1

/-- The polynomial over GF(2) whose coefficients are the bits of a word. -/
noncomputable def bitsPoly {w : Nat} (c : BitVec w) : (ZMod 2)[X] :=
  ∑ i ∈ Finset.range w, if c.getLsbD i then X ^ i else 0

theorem bitsPoly_xor {w : Nat} (a b : BitVec w) : bitsPoly (a ^^^ b) = bitsPoly a + bitsPoly b := by
  rw [bitsPoly, bitsPoly, bitsPoly, ← Finset.sum_add_distrib]
  refine Finset.sum_congr rfl fun i _ => ?_
  rw [BitVec.getLsbD_xor]
  cases a.getLsbD i <;> cases b.getLsbD i <;> simp [CharTwo.add_self_eq_zero]

/-- A shift to the left multiplies by `X`, but for the bit that it loses. -/
theorem bitsPoly_shiftLeft_one {w : Nat} (c : BitVec (w + 1)) :
    bitsPoly (c <<< 1) + (if c.getLsbD w then X ^ (w + 1) else 0) = bitsPoly c * X := by
  have hshift : bitsPoly (c <<< 1) = ∑ i ∈ Finset.range w, (if c.getLsbD i then X ^ i else 0) * X := by
    rw [bitsPoly, Finset.sum_range_succ']
    simp +contextual [Finset.sum_congr, pow_succ]
  rw [hshift, bitsPoly, Finset.sum_mul, Finset.sum_range_succ]
  congr 1
  split <;> simp [pow_succ]

/-- A byte at the top of the register stands for the byte times `X ^ 8`. -/
theorem bitsPoly_byte_shiftLeft (b : Byte) : bitsPoly (b.setWidth 16 <<< 8 : Half) = bitsPoly b * X ^ 8 := by
  have hlow : ∀ i ∈ Finset.range 8,
      (if (b.setWidth 16 <<< 8 : Half).getLsbD i then X ^ i else 0 : (ZMod 2)[X]) = 0 := fun i hi => by
    simp [Finset.mem_range.1 hi]
  rw [bitsPoly, bitsPoly, Finset.sum_range_add _ 8 8, Finset.sum_eq_zero hlow, zero_add, Finset.sum_mul]
  refine Finset.sum_congr rfl fun i hi => ?_
  rw [Finset.mem_range] at hi
  have hbit : (b.setWidth 16 <<< 8 : Half).getLsbD (8 + i) = b.getLsbD i := by
    rw [BitVec.getLsbD_shiftLeft, BitVec.getLsbD_setWidth, Nat.add_sub_cancel_left]
    simp [show 8 + i < 16 by omega, show i < 16 by omega]
  rw [hbit, ite_mul, zero_mul, ← pow_add, Nat.add_comm]

theorem bitsPoly_0x1021 : bitsPoly (0x1021 : Half) = X ^ 12 + X ^ 5 + 1 := by
  simp [bitsPoly, Finset.sum_range_succ]
  ring

/-- The residue class of a register modulo the generator. -/
noncomputable def crcClass {w : Nat} (c : BitVec w) : AdjoinRoot crcGenerator := AdjoinRoot.mk _ (bitsPoly c)

theorem crcClass_xor {w : Nat} (a b : BitVec w) : crcClass (a ^^^ b) = crcClass a + crcClass b := by
  simp only [crcClass, bitsPoly_xor, map_add]

/-- Modulo the generator `X ^ 16` is the polynomial 0x1021. -/
theorem crcClass_0x1021 : crcClass (0x1021 : Half) = AdjoinRoot.root crcGenerator ^ 16 := by
  rw [crcClass, bitsPoly_0x1021, ← AdjoinRoot.mk_X, ← map_pow, AdjoinRoot.mk_eq_mk, CharTwo.sub_eq_add]
  exact dvd_of_eq (by rw [crcGenerator]; ring)

/-- One turn of the loop multiplies by `X`: the bit that the shift loses comes back as 0x1021. -/
theorem crcClass_crcBit (c : Half) : crcClass (crcBit c) = crcClass c * AdjoinRoot.root crcGenerator := by
  have hshift : crcClass (c <<< 1) + (if c.getLsbD 15 then AdjoinRoot.root crcGenerator ^ 16 else 0) =
      crcClass c * AdjoinRoot.root crcGenerator := by
    simpa [crcClass, apply_ite] using congrArg (AdjoinRoot.mk crcGenerator) (bitsPoly_shiftLeft_one c)
  rw [← hshift, crcBit]
  cases c.getLsbD 15 with
  | false => simp
  | true => simp [crcClass_xor, ← crcClass_0x1021]

theorem crcClass_crcBits (n : Nat) (c : Half) :
    crcClass (crcBits n c) = crcClass c * AdjoinRoot.root crcGenerator ^ n := by
  induction n generalizing c with
  | zero => rw [crcBits, pow_zero, mul_one]
  | succ n ih => rw [crcBits, ih, crcClass_crcBit, mul_assoc, ← pow_succ']

theorem crcClass_crcStep (c : Half) (b : Byte) :
    crcClass (crcStep c b) =
      crcClass c * AdjoinRoot.root crcGenerator ^ 8 + crcClass b * AdjoinRoot.root crcGenerator ^ 16 := by
  have hbyte : crcClass (b.setWidth 16 <<< 8 : Half) = crcClass b * AdjoinRoot.root crcGenerator ^ 8 := by
    simp only [crcClass, bitsPoly_byte_shiftLeft, map_mul, map_pow, AdjoinRoot.mk_X]
  rw [crcStep, crcClass_crcBits, crcClass_xor, hbyte]
  ring

/-- The class of the CRC, for `P` the message polynomial. -/
theorem crcClass_crc16 {P : List Byte → (ZMod 2)[X]} (hnil : P [] = 0)
    (hcons : ∀ b s, P (b :: s) = bitsPoly b * X ^ (8 * s.length) + P s) (seed : Half) (s : List Byte) :
    crcClass (crc16 seed s) = AdjoinRoot.mk crcGenerator (bitsPoly seed * X ^ (8 * s.length) + P s * X ^ 16) := by
  induction s generalizing seed with
  | nil => simp [crc16, crcClass, hnil]
  | cons b s ih =>
    have hstep := crcClass_crcStep seed b
    simp only [crcClass] at hstep
    rw [crc16, ih, hcons, List.length_cons]
    simp only [map_add, map_mul, map_pow, AdjoinRoot.mk_X, hstep]
    ring

/-- Settles O11: the CRC and the polynomial of the seed and the message are in one class modulo the generator. -/
theorem crcIsRemainderByGenerator : Obligations.CrcIsRemainderByGenerator := by
  intro P hnil hcons seed s
  have hclass := (crcClass_crc16 hnil hcons seed s).symm
  rw [crcClass, AdjoinRoot.mk_eq_mk] at hclass
  obtain ⟨q, hq⟩ := hclass
  exact ⟨q, by rw [mul_comm q]; exact sub_eq_iff_eq_add.1 hq⟩

end Remainder

/-! ### The laws (R105, R106) -/

/-- A register is its low byte and its high byte shifted into place. -/
theorem half_eq_bytes (c : Half) :
    c = (c.setWidth 8).setWidth 16 ^^^ ((c >>> 8).setWidth 8).setWidth 16 <<< 8 := by
  refine BitVec.eq_of_getLsbD_eq fun i hi => ?_
  by_cases hlow : i < 8
  · simp [hlow, hi]
  · simp [hlow, hi, show 8 + (i - 8) = i by omega, show i - 8 < 8 by omega]

/-- The loop shifts the low byte to the top and loses nothing of it. -/
theorem crcBits_lowByte (c : Half) : crcBits 8 ((c.setWidth 8).setWidth 16) = c <<< 8 := by
  rw [crcBits_low _ (by simp; omega)]
  refine BitVec.eq_of_getLsbD_eq fun i hi => ?_
  simp [show i - 8 < 16 by omega, show i - 8 < 8 by omega]

/-- Settles O9: the loop is linear, its low byte is shifted, and its high byte goes through the table. -/
theorem crcStepIsTableDriven : Obligations.CrcStepIsTableDriven := by
  intro c b
  have hbytes : c ^^^ b.setWidth 16 <<< 8 =
      (c.setWidth 8).setWidth 16 ^^^ ((c >>> 8).setWidth 8 ^^^ b).setWidth 16 <<< 8 := by
    rw [BitVec.setWidth_xor, BitVec.shiftLeft_xor_distrib, ← BitVec.xor_assoc, ← half_eq_bytes]
  have htable (x : Byte) : crcStep 0x0000 x = crcBits 8 (x.setWidth 16 <<< 8) := by simp [crcStep]
  rw [crcStep, hbytes, crcBits_xor, crcBits_lowByte, htable]

theorem crc16_append (c : Half) (a b : List Byte) : crc16 c (a ++ b) = crc16 (crc16 c a) b := by
  induction a generalizing c with
  | nil => rfl
  | cons x a ih => exact ih _

theorem crc16_zipWith_xor (c d : Half) {a b : List Byte} (h : a.length = b.length) :
    crc16 (c ^^^ d) (List.zipWith (· ^^^ ·) a b) = crc16 c a ^^^ crc16 d b := by
  induction a generalizing b c d with
  | nil => obtain rfl := List.length_eq_zero_iff.1 h.symm; rfl
  | cons x a ih =>
    cases b with
    | nil => cases h
    | cons y b =>
      rw [List.zipWith_cons_cons, crc16, crcStep_xor]
      exact ih _ _ (Nat.succ_inj.1 h)

/-- The register's own high byte leaves the low byte, shifted up. -/
theorem crcStep_highByte (c : Half) : crcStep c ((c >>> 8).setWidth 8) = c <<< 8 := by
  rw [crcStepIsTableDriven, BitVec.xor_self]
  simpa using crcStep_zero

/-- The residue (R106 b), from any seed. -/
theorem crc16_append_crc (seed : Half) (s : List Byte) :
    crc16 seed (s ++ [(crc16 seed s).extractLsb' 8 8, (crc16 seed s).extractLsb' 0 8]) = 0x0000 := by
  rw [crc16_append]
  generalize crc16 seed s = c
  have hhigh : c.extractLsb' 8 8 = (c >>> 8).setWidth 8 := rfl
  have hlow : c.extractLsb' 0 8 = (c <<< 8 >>> 8).setWidth 8 := by
    refine BitVec.eq_of_getLsbD_eq fun i hi => ?_
    simp [hi, show 8 + i < 16 by omega, show i < 16 by omega]
  rw [crc16, crc16, crc16, hhigh, hlow, crcStep_highByte, crcStep_highByte, ← BitVec.shiftLeft_add]
  simp

theorem crc16_zeros (n : Nat) : crc16 0x0000 (List.replicate n 0x00) = 0x0000 := by
  induction n with
  | zero => rfl
  | succ n ih =>
    rw [List.replicate_succ, crc16, show crcStep 0x0000 0x00 = 0x0000 from crcStep_zero, ih]

theorem zipWith_xor_zeros (s : List Byte) : List.zipWith (· ^^^ ·) s (List.replicate s.length 0x00) = s := by
  induction s with
  | nil => rfl
  | cons b s ih => rw [List.length_cons, List.replicate_succ, List.zipWith_cons_cons, ih]; simp

/-- Settles O10, one law a lemma. -/
theorem crcLaws : Obligations.CrcLaws := by
  refine ⟨crc16_append, fun seed s _ => crc16_append_crc seed s, fun a b h => ?_, fun s => ?_, crc16_zeros⟩
  · exact crc16_zipWith_xor 0x0000 0x0000 h
  · have hxor := crc16_zipWith_xor seedXmodem seedCcitt (a := s) (b := List.replicate s.length 0x00) (by simp)
    rwa [zipWith_xor_zeros] at hxor

/-! ### The commands CRCX and CRCC (R101, R102) -/

theorem crcCommand_range {s : State} (h : s.params.lbufSize < s.aOff.toNat + s.aCnt.toNat) (seed : Half) :
    s.crcCommand seed = s.raise .range :=
  if_pos (decide_eq_true h)

theorem crcCommand_done {s : State} (h : s.aOff.toNat + s.aCnt.toNat ≤ s.params.lbufSize) (seed : Half) :
    s.crcCommand seed = ({ s with crc := crc16 seed s.crcSpan } : State).finish .done :=
  if_neg (by simpa [State.crcOutOfRange] using h)

/-- Settles O8: the two ends of the command's common body, at the two seeds. -/
theorem crcCommandsComplete : Obligations.CrcCommandsComplete := by
  refine ⟨decodeWord_encode .crcx, decodeWord_encode .crcc, fun s => ⟨fun hout => ?_, fun hin => ?_⟩⟩
  · exact ⟨congrArg _ (crcCommand_range hout seedXmodem), congrArg _ (crcCommand_range hout seedCcitt)⟩
  · exact ⟨congrArg _ (crcCommand_done hin seedXmodem), congrArg _ (crcCommand_done hin seedCcitt)⟩

/-! ### The ends of DECODE, VERIFY and ENCODE (42_frame_codec.md R160, R165, R170) -/

section Ends
variable {s : State}

theorem lenOutOfRange_of_lt (h : s.params.lbufSize < s.len.toNat) : s.lenOutOfRange = true := decide_eq_true h

theorem lenOutOfRange_of_le (h : s.len.toNat ≤ s.params.lbufSize) : s.lenOutOfRange = false :=
  decide_eq_false (Nat.not_lt.2 h)

theorem execDecode_range (h : s.params.lbufSize < s.len.toNat) : exec .decode s = .next (s.raise .range) :=
  if_pos (lenOutOfRange_of_lt h)

theorem execVerify_range (h : s.params.lbufSize < s.len.toNat) : exec .verify s = .next (s.raise .range) :=
  if_pos (lenOutOfRange_of_lt h)

theorem execEncode_range (h : s.params.lbufSize < s.len.toNat) : exec .encode s = .next (s.raise .range) :=
  if_pos (lenOutOfRange_of_lt h)

theorem execDecode_found (h : s.len.toNat ≤ s.params.lbufSize) {k v : Nat} (hx : s.suffix = .found k v) :
    exec .decode s = .next ((s.writeSuffix (.found k v)).finish .found) := by
  simp [exec, execDecode, lenOutOfRange_of_le h, hx]

theorem execDecode_notFound (h : s.len.toNat ≤ s.params.lbufSize) {f : Bool} {k : Nat}
    (hx : s.suffix = .notFound f k) :
    exec .decode s = .next ((s.writeSuffix (.notFound f k)).finish .notFound) := by
  simp [exec, execDecode, lenOutOfRange_of_le h, hx]

theorem execVerify_notFound (h : s.len.toNat ≤ s.params.lbufSize) {f : Bool} {k : Nat}
    (hx : s.suffix = .notFound f k) :
    exec .verify s = .next ((s.writeSuffix (.notFound f k)).finish .notFound) := by
  simp [exec, execVerify, lenOutOfRange_of_le h, hx]

theorem execVerify_mismatch (h : s.len.toNat ≤ s.params.lbufSize) {k v : Nat} (hx : s.suffix = .found k v)
    (hv : v ≠ (crc16Xmodem (s.lbufSpan 0 k)).toNat) :
    exec .verify s = .next
      (({ s.writeSuffix (.found k v) with crc := crc16Xmodem (s.lbufSpan 0 k) } : State).finish .mismatch) := by
  simp [exec, execVerify, lenOutOfRange_of_le h, hx, hv]

theorem execVerify_valid (h : s.len.toNat ≤ s.params.lbufSize) {k v : Nat} (hx : s.suffix = .found k v)
    (hv : v = (crc16Xmodem (s.lbufSpan 0 k)).toNat) :
    exec .verify s = .next
      (({ s.writeSuffix (.found k v) with crc := crc16Xmodem (s.lbufSpan 0 k) } : State).strip k) := by
  simp only [exec, execVerify, lenOutOfRange_of_le h, hx, if_pos hv, Bool.false_eq_true, if_false]

theorem execEncode_done (h : s.len.toNat ≤ s.params.lbufSize) :
    exec .encode s = .next
      (({ s.setObufs 0 (frame s.line s.term) with
        olen := BitVec.ofNat 16 (frame s.line s.term).length, crc := crc16Xmodem s.line } : State).finish .done) := by
  simp [exec, execEncode, lenOutOfRange_of_le h]

end Ends

/-! ### The port and the clock (R107; 42_frame_codec.md R173) -/

/-- The command answers, reads neither the port nor NOW, and changes neither the port nor the clock. -/
def IgnoresPort (i : Instr) : Prop :=
  ∀ (s : State) (r : List Byte) (n : Word), ∃ t, exec i s = .next t ∧
    t.rx = s.rx ∧ t.now = s.now ∧ t.sinceSample = s.sinceSample ∧
    exec i { s with rx := r, now := n } = .next { t with rx := r, now := n }

theorem crcCommand_ignoresPort {i : Instr} {seed : Half} (hexec : ∀ s, exec i s = .next (s.crcCommand seed)) :
    IgnoresPort i := by
  intro s r n
  simp only [hexec]
  rcases Nat.lt_or_ge s.params.lbufSize (s.aOff.toNat + s.aCnt.toNat) with h | h
  · rw [crcCommand_range h, crcCommand_range (by exact h)]
    exact ⟨_, rfl, rfl, rfl, rfl, rfl⟩
  · rw [crcCommand_done h, crcCommand_done (by exact h)]
    exact ⟨_, rfl, rfl, rfl, rfl, rfl⟩

theorem decode_ignoresPort : IgnoresPort .decode := by
  intro s r n
  rcases Nat.lt_or_ge s.params.lbufSize s.len.toNat with h | h
  · exact ⟨_, execDecode_range h, rfl, rfl, rfl, execDecode_range (by exact h)⟩
  · cases hx : s.suffix with
    | found k v => exact ⟨_, execDecode_found h hx, rfl, rfl, rfl, execDecode_found (by exact h) hx⟩
    | notFound f k => exact ⟨_, execDecode_notFound h hx, rfl, rfl, rfl, execDecode_notFound (by exact h) hx⟩

theorem verify_ignoresPort : IgnoresPort .verify := by
  intro s r n
  rcases Nat.lt_or_ge s.params.lbufSize s.len.toNat with h | h
  · exact ⟨_, execVerify_range h, rfl, rfl, rfl, execVerify_range (by exact h)⟩
  · cases hx : s.suffix with
    | found k v =>
      by_cases hv : v = (crc16Xmodem (s.lbufSpan 0 k)).toNat
      · exact ⟨_, execVerify_valid h hx hv, rfl, rfl, rfl, execVerify_valid (by exact h) hx hv⟩
      · exact ⟨_, execVerify_mismatch h hx hv, rfl, rfl, rfl, execVerify_mismatch (by exact h) hx hv⟩
    | notFound f k => exact ⟨_, execVerify_notFound h hx, rfl, rfl, rfl, execVerify_notFound (by exact h) hx⟩

theorem encode_ignoresPort : IgnoresPort .encode := by
  intro s r n
  rcases Nat.lt_or_ge s.params.lbufSize s.len.toNat with h | h
  · exact ⟨_, execEncode_range h, rfl, rfl, rfl, execEncode_range (by exact h)⟩
  · exact ⟨_, execEncode_done h, rfl, rfl, rfl, execEncode_done (by exact h)⟩

/-- Settles O22, a lemma a command: what decides a command's end, and the end itself, are the same at any port and
NOW. -/
theorem onlyReadlineUsesPortAndClock : Obligations.OnlyReadlineUsesPortAndClock := by
  intro i s r n hi
  cases i with
  | crcx => exact crcCommand_ignoresPort (fun _ => rfl) s r n
  | crcc => exact crcCommand_ignoresPort (fun _ => rfl) s r n
  | readline => exact absurd rfl hi
  | decode => exact decode_ignoresPort s r n
  | verify => exact verify_ignoresPort s r n
  | encode => exact encode_ignoresPort s r n

end Sys2Proof.Machine

namespace Sys2Proof.Machine

/-! ## Proofs: the line reader (41_line_reader.md) -/

/-! ### The start and the poll iteration, one case at a time (R120, R122) -/

/-- The state a READLINE starts its first iteration in: the line is open at length 0. -/
def State.lineStarted (s : State) : State := { s with lrState := .accumulating, lrLen := 0 }

theorem execReadline_range {s : State} (h : s.lrState = .idle)
    (hsize : s.size.toNat = 0 ∨ s.params.lbufSize < s.size.toNat) :
    exec .readline s = .next (s.raise .range) := by
  have hout : s.sizeOutOfRange = true := by simp [State.sizeOutOfRange]; omega
  simp [exec, execReadline, h, hout]

/-- The start shares a block step with the first iteration (log 6). -/
theorem execReadline_lineStarted {s : State} (h : s.lrState = .idle) (hlo : 1 ≤ s.size.toNat)
    (hhi : s.size.toNat ≤ s.params.lbufSize) : exec .readline s = exec .readline s.lineStarted := by
  rw [execReadline_start h hlo hhi, execReadline_started (s := s.lineStarted) nofun]
  rfl

/-- The CR exit's condition (R124), as an iteration meets it. -/
theorem crExits_true {s : State} (h : s.lrState = .crPending)
    (hx : (∃ b, s.rx.head? = some b ∧ b ≠ chLF) ∨ s.graceOver = true) : s.crExits = true := by
  rcases hx with ⟨b, hb, hne⟩ | hg
  · simp [State.crExits, h, hb, hne]
  · simp [State.crExits, h, hg]

theorem crExit_line {s : State} (h : 0 < s.lrLen.toNat ∨ s.params.crBlank = .surface) :
    s.crExit = s.lineDone := if_pos (by simpa using h)

theorem crExit_blank {s : State} (h : s.lrLen = 0) (hp : s.params.crBlank = .suppress) :
    s.crExit = { s with lrState := .accumulating } := if_neg (by simp [h, hp])

theorem consume_cr (s : State) : s.consume chCR = { s with lrState := .crPending, crTime := s.now } := if_pos rfl

theorem consume_lf_blank {s : State} (h : s.lrLen = 0) :
    s.consume chLF = { s with lrState := .accumulating } := by
  rw [State.consume, if_neg (by decide), if_pos rfl, if_neg (by simp [h])]

theorem consume_lf_line {s : State} (h : 0 < s.lrLen.toNat) : s.consume chLF = s.lineDone := by
  rw [State.consume, if_neg (by decide), if_pos rfl, if_pos h]

section Data
variable {s : State} {c : Byte} (hc : isData c = true)
include hc

/-- A data byte with room is appended (R126, R136). -/
theorem consume_store (h : s.lrLen.toNat < s.size.toNat - 1) :
    s.consume c = { s.setLbuf s.lrLen.toNat c with lrLen := s.lrLen + 1 } := by
  obtain ⟨hcr, hlf⟩ := isData_iff.1 hc
  rw [State.consume, if_neg hcr, if_neg hlf, if_pos h]

/-- A data byte without room is dropped (R126). -/
theorem consume_drop (h : ¬ s.lrLen.toNat < s.size.toNat - 1) : s.consume c = { s with trunc := true } := by
  obtain ⟨hcr, hlf⟩ := isData_iff.1 hc
  rw [State.consume, if_neg hcr, if_neg hlf, if_neg h]

end Data

/-- Settles O23: the range check and the start of `execReadline`. -/
theorem readlineStartChecksSize : Obligations.ReadlineStartChecksSize := by
  refine fun s h => ⟨fun hsize => ?_, execReadline_lineStarted h⟩
  rw [execReadline_range h hsize, State.raise, ← h]

/-- Settles O24: the outer deadline is checked first (`poll_late`), and `timed_out()` stores in LBUF[0..SIZE)
alone. -/
theorem readlineTimesOutAtTheDeadline : Obligations.ReadlineTimesOutAtTheDeadline := by
  intro s hst hlate
  refine ⟨_, _, by rw [execReadline_started hst, poll_late hlate]; rfl, fun a ha => ?_⟩
  exact State.cell_setLbufs_out s _ (by simpa [lbufBase] using ha)

/-- Settles O25, by the two outcomes of `cr_exit()`. -/
theorem readlineCrExit : Obligations.ReadlineCrExit := by
  intro s hst htime hx
  have hpoll : exec .readline s = .next s.sampled.crExit := by
    rw [execReadline_started (by rw [hst]; nofun), poll_crExit htime (crExits_true hst hx)]
  refine ⟨fun h => ?_, fun hlen hp => ?_⟩
  · exact hpoll.trans (congrArg _ (crExit_line h))
  · exact hpoll.trans (congrArg _ (crExit_blank hlen hp))

/-- Settles O26: neither check before the look at the port applies. -/
theorem readlineWaitsAtAnEmptyPort : Obligations.ReadlineWaitsAtAnEmptyPort := by
  intro s hst hrx htime hgrace
  rw [execReadline_started hst, poll_empty htime (crExits_false fun h => ⟨.inl (by rw [hrx]; rfl), hgrace h⟩) hrx]
  rfl

/-- Settles O27: neither check before the look at the port applies, and `consume` has an equation for each kind of
byte. -/
theorem readlineConsumesOneByte : Obligations.ReadlineConsumesOneByte := by
  intro s c rest hrx htime hst
  have hstarted : s.lrState ≠ .idle := by
    rcases hst with h | ⟨h, -⟩ <;> rw [h] <;> nofun
  have hx : s.crExits = false := by
    refine crExits_false fun h => ?_
    rcases hst with h' | ⟨-, rfl, hgrace⟩
    · rw [h] at h'; cases h'
    · exact ⟨.inr (by rw [hrx]; rfl), hgrace⟩
  rw [execReadline_started hstarted, poll_consume htime hx hrx]
  refine ⟨?_, ?_, ?_, fun hcr hlf hroom => ?_, fun hcr hlf hfull => ?_⟩
  · rintro rfl
    exact congrArg _ (consume_cr _)
  · rintro rfl hlen
    exact congrArg _ (consume_lf_blank hlen)
  · rintro rfl hlen
    exact congrArg _ (consume_lf_line hlen)
  · exact congrArg _ (consume_store (isData_iff.2 ⟨hcr, hlf⟩) hroom)
  · exact congrArg _ (consume_drop (isData_iff.2 ⟨hcr, hlf⟩) hfull)

end Sys2Proof.Machine

namespace Sys2Proof.Machine

/-! ### Whole runs: the start, and the bounded end (R133) -/

/-- A run whose first poll starts READLINE is the run of the started state. -/
theorem State.ReadyToRead.run_started {s : State} (h : s.ReadyToRead) {xs : List Poll} (hxs : xs ≠ []) :
    readlineRun xs s = readlineRun xs s.lineStarted := by
  cases xs with
  | nil => exact absurd rfl hxs
  | cons x xs =>
    have hexec : exec .readline (s.meets x) = exec .readline (s.lineStarted.meets x) :=
      execReadline_lineStarted (s := s.meets x) h.idle h.sizeLow h.sizeHigh
    rw [readlineRun, readlineRun, hexec, execReadline_started (s := s.lineStarted.meets x) nofun]

/-- READLINE has ended, with a line or at the deadline. -/
structure State.ReadlineEnded (s : State) : Prop where
  free : s.curOp = none
  idle : s.lrState = .idle
  result : s.res = .line ∨ s.res = .timeout

/-- The line assembler of a started READLINE goes idle only with the command's end. -/
theorem poll_ended {s : State} (hst : s.lrState ≠ .idle) (h : s.poll.lrState = .idle) : s.poll.ReadlineEnded := by
  cases poll_move s with
  | late e => rw [e]; exact ⟨rfl, rfl, .inr rfl⟩
  | line rx e => rw [e]; exact ⟨rfl, rfl, .inl rfl⟩
  | wait e => rw [e] at h; exact absurd h hst
  | terminator rx st hne sample e => rw [e] at h; exact absurd h hne
  | store rx c _ e => rw [e] at h; exact absurd h hst
  | drop rx e => rw [e] at h; exact absurd h hst

/-- A started READLINE has ended once the polls are over, if one of them reaches the outer deadline. -/
theorem readlineRun_ended {s : State} {xs : List Poll} (hst : s.lrState ≠ .idle)
    (hlate : ∃ x ∈ xs, expired s.params.deadlineCmp (x.1 - s.t0) s.tmo = true) :
    (readlineRun xs s).ReadlineEnded := by
  induction xs generalizing s with
  | nil => simp at hlate
  | cons x xs ih =>
    by_cases hidle : (s.meets x).poll.lrState = .idle
    · rw [readlineRun_end hst rfl hidle]
      exact poll_ended hst hidle
    · rw [readlineRun_go hst rfl hidle]
      apply ih hidle
      obtain ⟨z, hz, hexp⟩ := hlate
      rcases List.mem_cons.1 hz with rfl | hz
      · exact absurd (congrArg State.lrState (poll_late (s := s.meets z) hexp)) hidle
      · have hframe := poll_frame (s.meets x)
        exact ⟨z, hz, by rw [hframe.params, hframe.t0, hframe.tmo]; exact hexp⟩

/-- Settles O33, by induction over the polls: the one that reaches the deadline ends a run that has not ended. -/
theorem readlineEndsByTheDeadline : Obligations.ReadlineEndsByTheDeadline := by
  intro s xs hs hlate
  have hxs : xs ≠ [] := by rintro rfl; simp at hlate
  rw [hs.run_started hxs]
  obtain ⟨hfree, hidle, hres⟩ := readlineRun_ended (s := s.lineStarted) nofun hlate
  exact ⟨hfree, hidle, hres⟩

/-! ### What the line holds (R126, R129, R134) -/

/-- A READLINE with room for `n` data bytes, SIZE − 1, has consumed the data bytes `d` and goes on: it holds the
first `n` of them, and TRUNC tells whether there were more. -/
structure State.Gathered (s : State) (n : Nat) (d : List Byte) : Prop where
  started : s.lrState ≠ .idle
  noResult : s.res = .none
  size : s.size.toNat = n + 1
  text : s.lbufSpan 0 s.lrLen.toNat = d.take n
  drops : s.trunc = true ↔ n < d.length

/-- A READLINE with room for `n` data bytes has ended with LINE after the data bytes `d`. -/
structure State.HoldsLine (t : State) (n : Nat) (d : List Byte) : Prop where
  result : t.res = .line
  free : t.curOp = none
  idle : t.lrState = .idle
  text : t.lbufSpan 0 t.len.toNat = d.take n
  nul : t.lbuf t.len.toNat = 0x00
  drops : t.trunc = true ↔ n < d.length

theorem State.ReadyToRead.gathered {s : State} (h : s.ReadyToRead) :
    s.lineStarted.Gathered (s.size.toNat - 1) [] where
  started := nofun
  noResult := h.noResult
  size := (Nat.sub_add_cancel h.sizeLow).symm
  text := List.take_nil.symm
  drops := by simp [State.lineStarted, h.noDrop]

theorem State.HoldsLine.len_eq {t : State} {n : Nat} {d : List Byte} (h : t.HoldsLine n d) :
    t.len.toNat = min n d.length := by
  simpa using congrArg List.length h.text

namespace State.Gathered
variable {s : State} {n : Nat} {d : List Byte}

theorem lrLen_eq (h : s.Gathered n d) : s.lrLen.toNat = min n d.length := by
  simpa using congrArg List.length h.text

theorem lrLen_pos (h : s.Gathered n d) (hd : d ≠ []) (hfits : d.length ≤ n) : 0 < s.lrLen.toNat := by
  have := List.length_pos_iff.2 hd
  rw [h.lrLen_eq]; omega

theorem meets (h : s.Gathered n d) (x : Poll) : (s.meets x).Gathered n d := { h with }

theorem sampled (h : s.Gathered n d) : s.sampled.Gathered n d := { h with }

/-- A byte is taken off the port. -/
theorem popped (h : s.Gathered n d) (r : List Byte) :
    ({ s with rx := r, sinceSample := some 0 } : State).Gathered n d := { h with }

theorem accumulating (h : s.Gathered n d) : ({ s with lrState := .accumulating } : State).Gathered n d :=
  { h with started := nofun }

theorem lineDone (h : s.Gathered n d) : s.lineDone.HoldsLine n d := by
  obtain ⟨hres, hfree, hidle, hlen, hspan, hnul, -⟩ := lineDone_post s
  exact ⟨hres, hfree, hidle, by rw [hlen, hspan, h.text], by rw [hlen, hnul], h.drops⟩

theorem consume_cr (h : s.Gathered n d) : (s.consume chCR).Gathered n d := by
  rw [Machine.consume_cr]; exact { h with started := nofun }

/-- A data byte is stored while there is room for it, dropped from then on. -/
theorem consume_data (h : s.Gathered n d) {c : Byte} (hc : isData c = true) :
    (s.consume c).Gathered n (d ++ [c]) ∧ (s.consume c).lrState = s.lrState ∧ (s.consume c).rx = s.rx := by
  have hlen := h.lrLen_eq
  have hsize := h.size
  by_cases hroom : s.lrLen.toNat < s.size.toNat - 1
  · rw [consume_store hc hroom]
    have hnext : (s.lrLen + 1).toNat = s.lrLen.toNat + 1 := by bv_omega
    have hkeeps : (s.setLbuf s.lrLen.toNat c).lbufSpan 0 s.lrLen.toNat = s.lbufSpan 0 s.lrLen.toNat := by
      refine State.lbufSpan_congr fun i hi => ?_
      rw [Nat.zero_add]; exact State.lbuf_setLbuf_ne s c (by omega)
    have htext : (s.setLbuf s.lrLen.toNat c).lbufSpan 0 (s.lrLen + 1).toNat = (d ++ [c]).take n := by
      rw [hnext, State.lbufSpan_succ, hkeeps, h.text, Nat.zero_add, State.lbuf_setLbuf_same,
        List.take_of_length_le (by omega), List.take_of_length_le (by simp; omega)]
    have hdrops : s.trunc = true ↔ n < (d ++ [c]).length := by
      rw [h.drops, List.length_append, List.length_singleton]; omega
    exact ⟨⟨h.started, h.noResult, hsize, htext, hdrops⟩, rfl, rfl⟩
  · rw [consume_drop hc hroom]
    have htext : s.lbufSpan 0 s.lrLen.toNat = (d ++ [c]).take n := by
      rw [h.text, List.take_append_of_le_length (by omega)]
    have hdrops : n < (d ++ [c]).length := by
      rw [List.length_append, List.length_singleton]; omega
    exact ⟨⟨h.started, h.noResult, hsize, htext, iff_of_true rfl hdrops⟩, rfl, rfl⟩

theorem consume_lf (h : s.Gathered n d) :
    (s.consume chLF).rx = s.rx ∧ ((s.consume chLF).Gathered n d ∨ (s.consume chLF).HoldsLine n d) := by
  by_cases hpos : 0 < s.lrLen.toNat
  · rw [consume_lf_line hpos]; exact ⟨rfl, .inr h.lineDone⟩
  · rw [consume_lf_blank (by bv_omega)]; exact ⟨rfl, .inl h.accumulating⟩

/-- A consumed byte joins the line if it is a data byte; else it ends the line or leaves it as it was. -/
theorem consume (h : s.Gathered n d) (c : Byte) :
    (s.consume c).rx = s.rx ∧
      ((s.consume c).Gathered n (d ++ [c].filter isData) ∨ (s.consume c).HoldsLine n (d ++ [c].filter isData)) := by
  by_cases hcr : c = chCR
  · subst hcr
    exact ⟨by rw [Machine.consume_cr], .inl (by simpa [isData] using h.consume_cr)⟩
  · by_cases hlf : c = chLF
    · subst hlf
      simpa [isData] using h.consume_lf
    · have hc := isData_iff.2 ⟨hcr, hlf⟩
      obtain ⟨hnext, -, hrx⟩ := h.consume_data hc
      exact ⟨hrx, .inl (by simpa [hc] using hnext)⟩

/-- What one iteration makes of the line: it goes on, ends with LINE, or ends at the deadline. -/
theorem poll (h : s.Gathered n d) : ∃ taken, s.rx = taken ++ s.poll.rx ∧
    (s.poll.Gathered n (d ++ taken.filter isData) ∨ s.poll.HoldsLine n (d ++ taken.filter isData) ∨
      (s.poll.lrState = .idle ∧ s.poll.res = .timeout)) := by
  cases hd : s.deadlineReached with
  | true => rw [poll_late hd]; exact ⟨[], rfl, .inr (.inr ⟨rfl, rfl⟩)⟩
  | false =>
    cases hx : s.crExits with
    | true =>
      rw [poll_crExit hd hx, State.crExit]
      split
      · exact ⟨[], rfl, .inr (.inl (by simpa using h.sampled.lineDone))⟩
      · exact ⟨[], rfl, .inl (by simpa using h.sampled.accumulating)⟩
    | false =>
      cases hr : s.rx with
      | nil => rw [poll_empty hd hx hr]; exact ⟨[], by simp [hr], .inl (by simpa using h.sampled)⟩
      | cons c r =>
        rw [poll_consume hd hx hr]
        obtain ⟨hrx, hnext⟩ := (h.popped r).consume c
        exact ⟨[c], by rw [hrx]; rfl, hnext.imp_right .inl⟩

end State.Gathered

/-- A run that ends with LINE holds the data bytes it has consumed. -/
theorem State.Gathered.run {s : State} {n : Nat} {d : List Byte} (h : s.Gathered n d) {xs : List Poll}
    (hline : (readlineRun xs s).res = .line) :
    ∃ (k : Nat) (consumed : List Byte), k ≤ xs.length ∧
      s.rx ++ arrivals (xs.take k) = consumed ++ (readlineRun xs s).rx ∧
      (readlineRun xs s).HoldsLine n (d ++ consumed.filter isData) := by
  induction xs generalizing s d with
  | nil => exact absurd (h.noResult.symm.trans hline) nofun
  | cons x xs ih =>
    obtain ⟨taken, hrx, hnext⟩ := (h.meets x).poll
    have hport : s.rx ++ x.2 = taken ++ (s.meets x).poll.rx := hrx
    rcases hnext with hnext | hnext | ⟨hidle, hres⟩
    · rw [readlineRun_go h.started rfl hnext.started] at hline ⊢
      obtain ⟨k, consumed, hk, hstream, hend⟩ := ih hnext hline
      refine ⟨k + 1, taken ++ consumed, Nat.succ_le_succ hk, ?_, by simpa using hend⟩
      rw [List.take_succ_cons, arrivals_cons, ← List.append_assoc, hport, List.append_assoc, hstream,
        List.append_assoc]
    · rw [readlineRun_end h.started rfl hnext.idle]
      exact ⟨1, taken, by simp, by simpa [arrivals] using hport, hnext⟩
    · rw [readlineRun_end h.started rfl hidle, hres] at hline; cases hline

/-- Settles O29, by induction over the polls from the line that holds nothing. -/
theorem lineIsTheConsumedData : Obligations.LineIsTheConsumedData := by
  intro s xs hs hline
  have hxs : xs ≠ [] := by
    rintro rfl
    exact absurd (hs.noResult.symm.trans hline) nofun
  rw [hs.run_started hxs] at hline ⊢
  obtain ⟨k, consumed, hk, hstream, hend⟩ := hs.gathered.run hline
  rw [List.nil_append] at hend
  have hlen := hend.len_eq
  exact ⟨k, consumed, hk, hstream, hend.text, by omega, hend.nul, hend.drops⟩

/-! ### Runs that go on: the polls that are passed -/

/-- A READLINE in the state `s` passes the polls `xs` and is then in the state `u`, at the same outer deadline. -/
structure State.Passes (s : State) (xs : List Poll) (u : State) : Prop where
  run : ∀ ys, readlineRun (xs ++ ys) s = readlineRun ys u
  params : u.params = s.params
  t0 : u.t0 = s.t0
  tmo : u.tmo = s.tmo

theorem State.Passes.nil (s : State) : s.Passes [] s := ⟨fun _ => rfl, rfl, rfl, rfl⟩

theorem State.Passes.append {s u v : State} {xs ys : List Poll} (h : s.Passes xs u) (h' : u.Passes ys v) :
    s.Passes (xs ++ ys) v where
  run zs := by rw [List.append_assoc, h.run, h'.run]
  params := h'.params.trans h.params
  t0 := h'.t0.trans h.t0
  tmo := h'.tmo.trans h.tmo

/-- One more poll of a list of polls is passed. -/
theorem State.Passes.snoc {s u v : State} {xs : List Poll} {k : Nat} {z : Poll} (h : s.Passes (xs.take k) u)
    (hz : xs[k]? = some z) (h' : u.Passes [z] v) : s.Passes (xs.take (k + 1)) v := by
  rw [List.take_add_one, hz]; exact h.append h'

/-- An iteration after which READLINE goes on. -/
theorem State.Passes.poll {s : State} {x : Poll} (hst : s.lrState ≠ .idle)
    (h : (s.meets x).poll.lrState ≠ .idle) : s.Passes [x] (s.meets x).poll where
  run _ := readlineRun_go hst rfl h
  params := (poll_frame (s.meets x)).params
  t0 := (poll_frame (s.meets x)).t0
  tmo := (poll_frame (s.meets x)).tmo

theorem State.Passes.inTime {s u : State} {xs ys : List Poll} (h : s.Passes xs u) (ht : s.inTime ys) :
    u.inTime ys := fun z hz => by
  rw [h.params, h.t0, h.tmo]; exact ht z hz

/-- The run ends at the poll behind those passed. -/
theorem State.Passes.run_end {s u t : State} {xs : List Poll} {j : Nat} {y : Poll} (h : s.Passes (xs.take j) u)
    (hy : xs[j]? = some y) (hst : u.lrState ≠ .idle) (hp : (u.meets y).poll = t) (ht : t.lrState = .idle) :
    readlineRun xs s = t := by
  obtain ⟨hj, rfl⟩ := List.getElem?_eq_some_iff.1 hy
  calc readlineRun xs s = readlineRun (xs.take j ++ xs.drop j) s := by rw [List.take_append_drop]
    _ = readlineRun (xs[j] :: xs.drop (j + 1)) u := by rw [h.run, List.drop_eq_getElem_cons hj]
    _ = t := readlineRun_end hst hp ht

/-! ### The stream at a poll -/

theorem arrivals_take_succ {xs : List Poll} {k : Nat} {z : Poll} (hz : xs[k]? = some z) :
    arrivals (xs.take (k + 1)) = arrivals (xs.take k) ++ z.2 := by
  simp [arrivals, List.take_add_one, hz]

/-- The polls take no more than the port has been given. -/
theorem takenFrom_le (m : Nat) (xs : List Poll) : takenFrom m xs ≤ m + (arrivals xs).length := by
  induction xs generalizing m with
  | nil => simp
  | cons x xs ih =>
    rw [arrivals_cons, List.length_append]
    by_cases h : m + x.2.length = 0
    · rw [takenFrom_empty h]; have := ih 0; omega
    · rw [takenFrom_byte h]; have := ih (m + x.2.length - 1); omega

/-- The bytes taken by poll `k` are the first of the stream, however much of it is looked at. -/
theorem stream_taken {p e r : List Byte} {xs : List Poll} {k l : Nat} (hkl : k ≤ l)
    (htake : takenFrom p.length (xs.take k) = e.length) (h : p ++ arrivals (xs.take l) = e ++ r) :
    ∃ r', p ++ arrivals (xs.take k) = e ++ r' := by
  have hlen := takenFrom_le p.length (xs.take k)
  have hprefix : p ++ arrivals (xs.take k) <+: e ++ r := by
    obtain ⟨m, rfl⟩ := Nat.exists_eq_add_of_le hkl
    rw [← h, List.take_add, arrivals, arrivals, List.map_append, List.flatten_append, ← List.append_assoc]
    exact List.prefix_append ..
  obtain ⟨r', hr'⟩ := List.prefix_of_prefix_length_le (List.prefix_append e r) hprefix
    (by rw [List.length_append]; omega)
  exact ⟨r', hr'.symm⟩

theorem inTime_at {s : State} {xs : List Poll} {j k : Nat} {z : Poll} (h : s.inTime (xs.take (j + 1)))
    (hk : k ≤ j) (hz : xs[k]? = some z) : s.inTime [z] := by
  have hmem : z ∈ xs.take (j + 1) :=
    List.mem_of_getElem? (i := k) (by rw [List.getElem?_take_of_lt (by omega), hz])
  simpa [State.inTime] using h z hmem

theorem inTime_take {s : State} {xs : List Poll} {j k : Nat} (h : s.inTime (xs.take (j + 1))) (hk : k ≤ j) :
    s.inTime (xs.take k) :=
  fun z hz => h z ((List.take_subset_take_left xs (by omega)) hz)

/-- The outer deadline is not reached at a poll in time. -/
theorem deadlineReached_false {s : State} {z : Poll} (h : s.inTime [z]) : (s.meets z).deadlineReached = false :=
  h z (List.mem_singleton_self z)

/-! ### The data bytes, the CR and the pause after it -/

theorem crExits_of_accumulating {s : State} (h : s.lrState = .accumulating) : s.crExits = false :=
  crExits_false fun h' => by rw [h] at h'; cases h'

/-- Polls in time that take the data bytes `e` are passed, and add them to the line. -/
theorem State.Gathered.passesData {s : State} {n : Nat} {d e r : List Byte} {xs : List Poll}
    (h : s.Gathered n d) (hacc : s.lrState = .accumulating) (htime : s.inTime xs)
    (hdata : ∀ b ∈ e, isData b = true) (htake : takenFrom s.rx.length xs = e.length)
    (hstream : s.rx ++ arrivals xs = e ++ r) :
    ∃ u, s.Passes xs u ∧ u.Gathered n (d ++ e) ∧ u.lrState = .accumulating ∧ u.rx = r := by
  induction xs generalizing s d e with
  | nil =>
    obtain rfl : e = [] := List.length_eq_zero_iff.1 htake.symm
    exact ⟨s, .nil s, by simpa using h, hacc, by simpa [arrivals] using hstream⟩
  | cons x xs ih =>
    have hlate : (s.meets x).deadlineReached = false := htime x List.mem_cons_self
    have hx : (s.meets x).crExits = false := crExits_of_accumulating (s := s.meets x) hacc
    have hrest : s.inTime xs := fun z hz => htime z (List.mem_cons_of_mem x hz)
    rw [arrivals_cons, ← List.append_assoc] at hstream
    cases hport : s.rx ++ x.2 with
    | nil =>
      have hp := poll_empty hlate hx hport
      have hgo : s.Passes [x] (s.meets x).sampled := hp ▸ .poll h.started (by rw [hp]; exact h.started)
      have hzero : s.rx.length + x.2.length = 0 := by simpa using congrArg List.length hport
      rw [takenFrom_empty hzero] at htake
      have hrx : (s.meets x).sampled.rx = [] := hport
      obtain ⟨u, hu, hend⟩ := ih (h.meets x).sampled hacc (hgo.inTime hrest) hdata (by rw [hrx]; exact htake)
        (by rw [hrx, ← hport]; exact hstream)
      exact ⟨u, hgo.append hu, hend⟩
    | cons b t =>
      have hp := poll_consume hlate hx hport
      have hcount : s.rx.length + x.2.length = t.length + 1 := by simpa using congrArg List.length hport
      rw [takenFrom_byte (by omega), hcount] at htake
      cases e with
      | nil => cases htake
      | cons c e =>
        rw [hport] at hstream
        obtain ⟨rfl, htail⟩ := List.cons.inj hstream
        obtain ⟨hnext, hst, hrx⟩ := ((h.meets x).popped t).consume_data (hdata b List.mem_cons_self)
        rw [← hp] at hnext hst hrx
        have hgo : s.Passes [x] (s.meets x).poll := .poll h.started hnext.started
        obtain ⟨u, hu, hend⟩ := ih hnext (hst.trans hacc) (hgo.inTime hrest)
          (fun z hz => hdata z (List.mem_cons_of_mem b hz)) (by rw [hrx]; exact Nat.succ.inj htake)
          (by rw [hrx]; exact htail)
        exact ⟨u, hgo.append hu, by simpa using hend⟩

/-- The state that poll `i` meets when the polls before it have taken the data bytes `d`. -/
theorem State.Gathered.reachesByte {s : State} {n : Nat} {d r : List Byte} {xs : List Poll} {i : Nat} {x : Poll}
    (h : s.Gathered n []) (hacc : s.lrState = .accumulating) (htime : s.inTime (xs.take (i + 1)))
    (hdata : ∀ b ∈ d, isData b = true) (htake : s.takesAt xs d.length i) (hx : xs[i]? = some x)
    (hstream : s.rx ++ arrivals (xs.take (i + 1)) = d ++ r) :
    ∃ u, s.Passes (xs.take i) u ∧ u.Gathered n d ∧ u.lrState = .accumulating ∧ u.rx ++ x.2 = r := by
  obtain ⟨r', hr'⟩ := stream_taken (Nat.le_succ i) htake.1 hstream
  obtain ⟨u, hu, hheld, hst, hrx⟩ := h.passesData hacc (inTime_take htime le_rfl) hdata htake.1 hr'
  refine ⟨u, hu, hheld, hst, ?_⟩
  rw [arrivals_take_succ hx, ← List.append_assoc, hr', List.append_assoc] at hstream
  rw [hrx]; exact List.append_cancel_left hstream

/-- READLINE has passed the polls before poll `k`, has taken the data bytes `d` and the CR at time `c`, and waits for
what comes behind it. -/
structure State.HoldsCr (s : State) (n : Nat) (d : List Byte) (xs : List Poll) (c : Word) (k : Nat) (v : State) :
    Prop where
  passes : s.Passes (xs.take k) v
  gathered : v.Gathered n d
  pending : v.lrState = .crPending
  sample : v.crTime = c
  stream : s.rx ++ arrivals (xs.take k) = d ++ chCR :: v.rx

section Cr
variable {s : State} {n : Nat} {d r : List Byte} {xs : List Poll} {i j : Nat} {x y : Poll}

/-- The CR is consumed at poll `i` (R127). -/
theorem State.Gathered.takesCr (h : s.Gathered n []) (hacc : s.lrState = .accumulating)
    (hdata : ∀ b ∈ d, isData b = true) (hp : s.PausesAfterCr d xs i j x)
    (hstream : s.rx ++ arrivals (xs.take (j + 1)) = d ++ chCR :: r) (htime : s.inTime (xs.take (j + 1))) :
    ∃ v, s.HoldsCr n d xs x.1 (i + 1) v := by
  have hij := hp.later
  obtain ⟨r₁, hr₁⟩ := stream_taken (e := d ++ [chCR]) (r := r) (by omega : i + 1 ≤ j + 1)
    (by simpa using hp.takesCr.2) (by simpa using hstream)
  rw [List.append_assoc, List.singleton_append] at hr₁
  obtain ⟨u, hu, hheld, hst, hrx⟩ := h.reachesByte hacc (inTime_take htime (by omega)) hdata hp.takesCr hp.sample hr₁
  have hlate := deadlineReached_false (hu.inTime (inTime_at htime hij.le hp.sample))
  have hpoll := (poll_consume hlate (crExits_of_accumulating (s := u.meets x) hst) hrx).trans (Machine.consume_cr _)
  have hread : (u.meets x).poll.Gathered n d := by
    rw [hpoll]; exact { hheld with started := nofun }
  exact ⟨_, hu.snoc hp.sample (.poll hheld.started hread.started), hread, by rw [hpoll], by rw [hpoll]; rfl,
    by rw [hpoll]; exact hr₁⟩

/-- The grace window is measured from the CR (R124). -/
theorem State.HoldsCr.graceOver_eq {c : Word} {k : Nat} {v : State} (h : s.HoldsCr n d xs c k v) (z : Poll) :
    (v.meets z).graceOver = expired s.params.deadlineCmp (z.1 - c) 50 := by
  rw [← h.passes.params, ← h.sample]; rfl

/-- A poll at an empty port inside the grace window changes nothing of what is held (R131). -/
theorem State.HoldsCr.pause {c : Word} {k : Nat} {v : State} {z : Poll} (h : s.HoldsCr n d xs c k v)
    (hz : xs[k]? = some z) (htime : s.inTime [z]) (hempty : s.rx ++ arrivals (xs.take (k + 1)) = d ++ [chCR])
    (hgrace : expired s.params.deadlineCmp (z.1 - c) 50 = false) :
    s.HoldsCr n d xs c (k + 1) (v.meets z).sampled := by
  have hstream : s.rx ++ arrivals (xs.take (k + 1)) = d ++ chCR :: (v.rx ++ z.2) := by
    rw [arrivals_take_succ hz, ← List.append_assoc, h.stream, List.append_assoc, List.cons_append]
  have hport : v.rx ++ z.2 = [] := by
    rw [hstream] at hempty
    exact (List.cons.inj (List.append_cancel_left hempty)).2
  have hopen : (v.meets z).graceOver = false := (h.graceOver_eq z).trans hgrace
  have hpoll := poll_empty (deadlineReached_false (h.passes.inTime htime))
    (crExits_false fun _ => ⟨.inl (by rw [show (v.meets z).rx = [] from hport]; rfl), hopen⟩) hport
  have hgo : v.Passes [z] (v.meets z).sampled :=
    hpoll ▸ .poll h.gathered.started (by rw [hpoll]; exact h.gathered.started)
  exact ⟨h.passes.snoc hz hgo, (h.gathered.meets z).sampled, h.pending, h.sample, hstream⟩

/-- Poll `j` finds the line and its CR held, by induction over the polls of the pause. -/
theorem State.Gathered.reachesPause (h : s.Gathered n []) (hacc : s.lrState = .accumulating)
    (hdata : ∀ b ∈ d, isData b = true) (hp : s.PausesAfterCr d xs i j x) (hy : xs[j]? = some y)
    (hstream : s.rx ++ arrivals (xs.take (j + 1)) = d ++ chCR :: r) (htime : s.inTime (xs.take (j + 1))) :
    ∃ v, s.HoldsCr n d xs x.1 j v ∧ v.rx ++ y.2 = r := by
  have hheld (k : Nat) (hik : i + 1 ≤ k) : k ≤ j → ∃ v, s.HoldsCr n d xs x.1 k v := by
    induction k, hik using Nat.le_induction with
    | base => exact fun _ => h.takesCr hacc hdata hp hstream htime
    | succ k hik ih =>
      intro hkj
      obtain ⟨v, hv⟩ := ih (by omega)
      obtain ⟨hj, -⟩ := List.getElem?_eq_some_iff.1 hy
      have hz : xs[k]? = some xs[k] := List.getElem?_eq_getElem (by omega)
      obtain ⟨hempty, hgrace⟩ := hp.pause k xs[k] hik hkj hz
      exact ⟨_, hv.pause hz (inTime_at htime (by omega) hz) hempty hgrace⟩
  obtain ⟨v, hv⟩ := hheld j hp.later le_rfl
  refine ⟨v, hv, ?_⟩
  rw [arrivals_take_succ hy, ← List.append_assoc, hv.stream, List.append_assoc, List.cons_append] at hstream
  exact (List.cons.inj (List.append_cancel_left hstream)).2

end Cr

/-! ### Terminator equivalence (R132) -/

/-- A line that fits is received whole. -/
theorem State.Gathered.receives {v t : State} {n : Nat} {d rest : List Byte} (h : v.Gathered n d)
    (hfits : d.length ≤ n) (hrx : v.rx = rest) (ht : t = v.lineDone) :
    t.res = .line ∧ t.curOp = none ∧ t.len.toNat = d.length ∧ t.lbufSpan 0 d.length = d ∧
      t.lbuf d.length = 0x00 ∧ t.rx = rest := by
  subst ht
  have hline := h.lineDone
  have hlen : v.lineDone.len.toNat = d.length := by rw [hline.len_eq]; omega
  have htext := hline.text
  rw [hlen, List.take_of_length_le hfits] at htext
  exact ⟨hline.result, hline.free, hlen, htext, hlen ▸ hline.nul, hrx⟩

theorem takesAt_getElem? {s : State} {xs : List Poll} {m i : Nat} (h : s.takesAt xs m i) :
    ∃ x, xs[i]? = some x := by
  obtain ⟨hbefore, hafter⟩ := h
  refine Option.ne_none_iff_exists'.1 fun hnone => ?_
  have hlen := List.getElem?_eq_none_iff.1 hnone
  rw [List.take_of_length_le hlen] at hbefore
  rw [List.take_of_length_le (by omega)] at hafter
  omega

theorem ne_nil_of_getElem? {xs : List Poll} {i : Nat} {x : Poll} (h : xs[i]? = some x) : xs ≠ [] := by
  rintro rfl; simp at h

/-- Settles O30: poll `j` takes the LF behind the data bytes. -/
theorem lineFeedEndsTheLine : Obligations.LineFeedEndsTheLine := by
  intro s d rest xs j hs hne hdata hfits htake hstream htime
  obtain ⟨x, hx⟩ := takesAt_getElem? htake
  rw [hs.run_started (ne_nil_of_getElem? hx)]
  obtain ⟨u, hu, hheld, hst, hrx⟩ := hs.gathered.reachesByte rfl htime hdata htake hx hstream
  have hlate := deadlineReached_false (hu.inTime (inTime_at htime le_rfl hx))
  have hpoll := poll_consume hlate (crExits_of_accumulating (s := u.meets x) hst) hrx
  have hread := (hheld.meets x).popped rest
  have hend := hpoll.trans (consume_lf_line (hread.lrLen_pos hne (by omega)))
  exact hread.receives (by omega) rfl (hu.run_end hx hheld.started hend rfl)

/-- Settles O31: poll `j` takes the LF behind the CR. -/
theorem crLfEndsTheLineOnce : Obligations.CrLfEndsTheLineOnce := by
  intro s d rest xs i j x y hs hne hdata hfits hp hy hstream htime hgrace
  rw [hs.run_started (ne_nil_of_getElem? hy)]
  obtain ⟨v, hv, hrx⟩ := hs.gathered.reachesPause rfl hdata { hp with } hy hstream htime
  have hlate := deadlineReached_false (hv.passes.inTime (inTime_at htime le_rfl hy))
  have hopen : (v.meets y).graceOver = false := (hv.graceOver_eq y).trans hgrace
  have hx : (v.meets y).crExits = false :=
    crExits_false fun _ => ⟨.inr (congrArg List.head? hrx), hopen⟩
  have hpoll := poll_consume hlate hx hrx
  have hread := (hv.gathered.meets y).popped rest
  have hend := hpoll.trans (consume_lf_line (hread.lrLen_pos hne (by omega)))
  exact hread.receives (by omega) rfl (hv.passes.run_end hy hv.gathered.started hend rfl)

/-- Settles O32: poll `j` takes the CR exit, and leaves the port as it is. -/
theorem bareCrEndsTheLine : Obligations.BareCrEndsTheLine := by
  intro s d rest xs i j x y hs hne hdata hfits hp hy hstream htime hexit
  rw [hs.run_started (ne_nil_of_getElem? hy)]
  obtain ⟨v, hv, hrx⟩ := hs.gathered.reachesPause rfl hdata { hp with } hy hstream htime
  have hlate := deadlineReached_false (hv.passes.inTime (inTime_at htime le_rfl hy))
  have hx : (v.meets y).crExits = true := by
    refine crExits_true (s := v.meets y) hv.pending ?_
    rcases hexit with hover | ⟨b, hb, hlf⟩
    · exact .inr ((hv.graceOver_eq y).trans hover)
    · exact .inl ⟨b, (congrArg List.head? hrx).trans hb, hlf⟩
  have hread := (hv.gathered.meets y).sampled
  have hend := (poll_crExit hlate hx).trans (crExit_line (.inl (hread.lrLen_pos hne (by omega))))
  exact hread.receives (by omega) hrx (hv.passes.run_end hy hv.gathered.started hend rfl)

end Sys2Proof.Machine

namespace Sys2Proof.Machine

/-! ## Proofs: the frame codec (42_frame_codec.md) -/

/-! ### The checksum suffix (R150 to R154) -/

theorem lastComma_some_iff {l : List Byte} {k : Nat} :
    lastComma l = some k ↔ ∃ p r, l = p ++ chComma :: r ∧ p.length = k ∧ chComma ∉ r := by
  refine ⟨lastComma_split, ?_⟩
  rintro ⟨p, r, rfl, rfl, hr⟩
  exact lastComma_append_comma p r hr

/-- Settles O12: the line is split at byte `k`, and no comma stands behind it. -/
theorem lastCommaIsTheDelimiter : Obligations.LastCommaIsTheDelimiter := by
  intro l k
  rw [lastComma_some_iff]
  constructor
  · rintro ⟨p, r, rfl, rfl, hr⟩
    refine ⟨by simp [chComma], fun j hj hcomma => hr ?_⟩
    obtain ⟨m, rfl⟩ := Nat.exists_eq_add_of_lt hj
    refine List.mem_of_getElem? (i := m) ?_
    rw [List.getElem?_append_right (by omega), Nat.add_assoc, Nat.add_sub_cancel_left] at hcomma
    exact hcomma
  · rintro ⟨hk, hlast⟩
    obtain ⟨hlt, hcomma⟩ := List.getElem?_eq_some_iff.1 hk
    refine ⟨l.take k, l.drop (k + 1), ?_, List.length_take_of_le hlt.le, fun hmem => ?_⟩
    · rw [show chComma = l[k] from hcomma.symm, ← List.drop_eq_getElem_cons, List.take_append_drop]
    · obtain ⟨m, hm⟩ := List.mem_iff_getElem?.1 hmem
      rw [List.getElem?_drop] at hm
      exact hlast (k + 1 + m) (by omega) hm

theorem decodeSuffix_no_comma (tr : CksumTrailing) {l : List Byte} (h : chComma ∉ l) :
    decodeSuffix tr l = .notFound false 0 := by
  rw [decodeSuffix, (lastComma_none_iff l).2 h]

/-- The decoder's number is the one the digits spell (20_memory.md R57). -/
theorem numeral_zero (d : List Byte) : numeral 0 d = spelled d := by
  rw [numeral_eq, Nat.zero_mul, Nat.zero_add]

/-- Settles O13, by `decodeSuffix_split`. -/
theorem suffixDecoding : Obligations.SuffixDecoding := by
  refine fun tr p d r => ⟨decodeSuffix_no_comma tr, fun hr hd hhead => ?_⟩
  have hstop (b : Byte) (hb : r.head? = some b) : isDigit b = false := by
    rw [← Bool.not_eq_true, isDigit_iff]; exact hhead b hb
  rw [← numeral_zero]
  exact decodeSuffix_split tr p d r hr (fun b hb => (isDigit_iff b).2 (hd b hb)) hstop

/-- The accumulator and the sticky flag for the value `v` (R153). -/
def accumulator (v : Nat) : Nat × Bool := (v % 2 ^ 16, decide (65535 < v))

/-- One turn of the accumulator's loop (R153). -/
def accumulate (a : Nat × Bool) (b : Byte) : Nat × Bool :=
  ((10 * a.1 + (b.toNat - 0x30)) % 2 ^ 16, a.2 || decide (65535 < 10 * a.1 + (b.toNat - 0x30)))

/-- A digit takes the accumulator of a number to that of the number with the digit behind it. -/
theorem accumulate_accumulator (v : Nat) (b : Byte) :
    accumulate (accumulator v) b = accumulator (10 * v + digitValue b) := by
  refine Prod.ext ?_ ?_
  · change (10 * (v % 2 ^ 16) + digitValue b) % 2 ^ 16 = (10 * v + digitValue b) % 2 ^ 16
    omega
  · change (decide (65535 < v) || decide (65535 < 10 * (v % 2 ^ 16) + digitValue b)) =
      decide (65535 < 10 * v + digitValue b)
    rw [← Bool.decide_or, decide_eq_decide]
    omega

theorem foldl_accumulate (v : Nat) (d : List Byte) :
    d.foldl accumulate (accumulator v) = accumulator (numeral v d) := by
  induction d generalizing v with
  | nil => rfl
  | cons b d ih => rw [List.foldl_cons, accumulate_accumulator, ih, numeral_cons]

/-- Settles O14, by induction over the digits from the accumulator of 0. -/
theorem sixteenBitAccumulatorIsExact : Obligations.SixteenBitAccumulatorIsExact := foldl_accumulate 0

/-! ### Decimal rendering (R156) -/

theorem dec_ne_nil (v : Half) : dec v ≠ [] := List.ne_nil_of_length_pos (dec_length v).1

/-- Only 0 is written with a leading zero. -/
theorem dec_head_zero {v : Half} (h : (dec v).head? = some 0x30) : v = 0 := by
  obtain ⟨-, -, -, -, hzero⟩ := decDigits_spec 4 v.toNat (by have := v.isLt; omega)
  exact BitVec.eq_of_toNat_eq (hzero h)

theorem spelled_lt_pow {d : List Byte} (hd : ∀ b ∈ d, isDigit b = true) : spelled d < 10 ^ d.length := by
  have hdigit : ∀ x ∈ (d.map fun b => b.toNat - 0x30).reverse, x < 10 := by
    intro x hx
    obtain ⟨b, hb, rfl⟩ := List.mem_map.1 (List.mem_reverse.1 hx)
    have := (isDigit_iff b).1 (hd b hb)
    omega
  simpa [spelled] using Nat.ofDigits_lt_base_pow_length (by decide) hdigit

/-- A numeral without a leading zero is at least the power of ten of its first digit. -/
theorem pow_le_spelled_cons {b : Byte} (hb : isDigit b = true) (hne : b ≠ 0x30) (d : List Byte) :
    10 ^ d.length ≤ spelled (b :: d) := by
  have hpos : 1 ≤ digitValue b := by
    have := (isDigit_iff b).1 hb
    have : b.toNat ≠ 0x30 := fun h => hne (BitVec.eq_of_toNat_eq h)
    rw [digitValue]; omega
  calc 10 ^ d.length ≤ digitValue b * 10 ^ d.length := Nat.le_mul_of_pos_left _ hpos
    _ ≤ numeral (digitValue b) d := by rw [numeral_eq]; exact Nat.le_add_right ..
    _ = spelled (b :: d) := by rw [← numeral_zero, numeral_cons, Nat.mul_zero, Nat.zero_add]

/-- Without a leading zero, a digit string is no longer than any other that spells its number. -/
theorem dec_shortest {v : Half} {d : List Byte} (hne : d ≠ []) (hd : ∀ b ∈ d, isDigit b = true)
    (hv : spelled d = v.toNat) : (dec v).length ≤ d.length := by
  cases hdec : dec v with
  | nil => exact Nat.zero_le _
  | cons b r =>
    by_cases hb : b = 0x30
    · obtain rfl : v = 0 := dec_head_zero (by rw [hdec, hb]; rfl)
      rw [← hdec]
      exact List.length_pos_iff.2 hne
    · have hlow : 10 ^ r.length ≤ v.toNat := by
        rw [← numeral_dec v, numeral_zero, hdec]
        exact pow_le_spelled_cons (dec_digits v b (by rw [hdec]; exact List.mem_cons_self)) hb r
      have hhigh := spelled_lt_pow hd
      exact (Nat.pow_lt_pow_iff_right (by decide)).1 (hlow.trans_lt (hv ▸ hhigh))

/-- Settles O15, one clause a lemma. -/
theorem decimalRenderingIsShortest : Obligations.DecimalRenderingIsShortest := by
  intro v
  obtain ⟨hlo, hhi⟩ := dec_length v
  refine ⟨fun b hb => (isDigit_iff b).1 (dec_digits v b hb), ?_, hlo, hhi, fun h => ?_, fun d hne hd hv => ?_,
    fun tr p => decodeSuffix_frame tr p v⟩
  · rw [← numeral_zero, numeral_dec]
  · rw [dec_head_zero h]; rfl
  · exact dec_shortest hne (fun b hb => (isDigit_iff b).2 (hd b hb)) hv

/-! ### The commands DECODE, VERIFY and ENCODE (R160, R165, R170) -/

/-- Settles O16, by the ends of DECODE. -/
theorem decodeCompletes : Obligations.DecodeCompletes :=
  ⟨decodeWord_encode .decode, fun _ => ⟨execDecode_range, fun hin =>
    ⟨fun _ _ hx => execDecode_found hin hx, fun _ _ hx => execDecode_notFound hin hx⟩⟩⟩

/-- Settles O17, by the ends of VERIFY. -/
theorem verifyCompletes : Obligations.VerifyCompletes :=
  ⟨decodeWord_encode .verify, fun _ => ⟨execVerify_range, fun hin =>
    ⟨fun _ _ hx => execVerify_notFound hin hx, fun _ _ hx hv => execVerify_mismatch hin hx hv,
      fun _ _ hx hv => execVerify_valid hin hx hv⟩⟩⟩

theorem obuf_setObufs (s : State) {bs : List Byte} {i : Nat} (h : i < bs.length) :
    (s.setObufs 0 bs).obuf i = bs[i] := by
  rw [← State.obuf_setObufs_in (i := 0) s bs h, Nat.zero_add]

theorem obufSpan_setObufs (s : State) (bs : List Byte) : (s.setObufs 0 bs).obufSpan bs.length = bs := by
  refine List.ext_getElem (State.obufSpan_length ..) fun i _ hi => ?_
  rw [State.obufSpan_getElem, obuf_setObufs s hi]

theorem line_length (s : State) : s.line.length = s.len.toNat := State.lbufSpan_length ..

/-- Settles O18: the frame is stored by `setObufs`, and its length fits OLEN. -/
theorem encodeCompletes : Obligations.EncodeCompletes := by
  refine ⟨decodeWord_encode .encode, fun s => ⟨execEncode_range, fun hp hin => ?_⟩⟩
  obtain ⟨holen, -⟩ := frame_fits hp hin
  obtain ⟨hlo, hhi⟩ := frame_length_bounds s.line s.term
  rw [line_length] at hlo hhi
  exact ⟨(s.setObufs 0 (frame s.line s.term)).mem, frame s.line s.term, rfl, execEncode_done hin, holen, hlo, hhi,
    obufSpan_setObufs s _, fun a ha => State.cell_setObufs_out s _ ha⟩

/-! ### Round trips (R175, R176) -/

/-- A frame without its terminator. -/
def frameLine (p : List Byte) : List Byte := p ++ [chComma] ++ dec (crc16Xmodem p)

theorem frame_eq (p : List Byte) (t : Byte) : frame p t = frameLine p ++ [t] := rfl

theorem dropLast_frame (p : List Byte) (t : Byte) : (frame p t).dropLast = frameLine p := List.dropLast_concat

theorem frameLine_length_lt (p : List Byte) (t : Byte) : (frameLine p).length < (frame p t).length := by
  rw [frame_eq, List.length_append]; exact Nat.lt_succ_self _

theorem frameLine_ne_nil (p : List Byte) : frameLine p ≠ [] := by simp [frameLine]

/-- What VERIFY makes of a line that is a frame without its terminator: the suffix matches and is stripped. -/
theorem execVerify_frameLine {s : State} {p : List Byte} (hin : s.len.toNat ≤ s.params.lbufSize)
    (hline : s.line = frameLine p) :
    ∃ t, exec .verify s = .next t ∧ t.res = .valid ∧ t.len = BitVec.ofNat 16 p.length ∧
      t.lbufSpan 0 p.length = p ∧ t.lbuf p.length = 0x00 := by
  have hsuffix : s.suffix = .found p.length (crc16Xmodem p).toNat := by
    rw [State.suffix, hline]; exact decodeSuffix_frame ..
  have hpayload : s.lbufSpan 0 p.length = p := by
    have hle : p.length ≤ s.len.toNat := by
      rw [← line_length, hline, frameLine, List.append_assoc, List.length_append]; exact Nat.le_add_right ..
    rw [← s.lbufSpan_take hle, ← State.line, hline, frameLine, List.append_assoc, List.take_left]
  refine ⟨_, execVerify_valid hin hsuffix (by rw [hpayload]), rfl, rfl, ?_, State.lbuf_setLbuf_same s _ _⟩
  refine (State.lbufSpan_congr fun i hi => ?_).trans hpayload
  rw [Nat.zero_add]
  exact s.lbuf_setLbuf_ne chNUL hi.ne

/-- Settles O19: the line loaded from OBUF is the frame without its terminator. -/
theorem verifyOfEncodeGivesThePayload : Obligations.VerifyOfEncodeGivesThePayload := by
  intro s t u hp hroom henc hparams hlen hbytes
  have hin : s.len.toNat ≤ s.params.lbufSize := by omega
  obtain ⟨holen, -⟩ := frame_fits hp hin
  obtain ⟨-, hhi⟩ := frame_length_bounds s.line s.term
  rw [line_length] at hhi
  obtain rfl := Host.Outcome.next.inj ((execEncode_done hin).symm.trans henc)
  replace hlen : u.len.toNat = (frameLine s.line).length := by
    rw [hlen]
    exact (congrArg (· - 1) holen).trans (by rw [frame_eq, List.length_append]; rfl)
  have hline : u.line = frameLine s.line := by
    refine List.ext_getElem (by rw [line_length, hlen]) fun i _ hi => ?_
    calc u.line[i] = u.lbuf i := by simp [State.line]
      _ = (s.setObufs 0 (frame s.line s.term)).obuf i := hbytes i (by omega)
      _ = (frame s.line s.term)[i]'(hi.trans (frameLine_length_lt ..)) := obuf_setObufs s _
      _ = (frameLine s.line)[i] := List.getElem_append_left hi
  have hfits := frameLine_length_lt s.line s.term
  obtain ⟨v, hv, hres, hvlen, hspan, hnul⟩ := execVerify_frameLine (by rw [hparams]; omega) hline
  rw [line_length] at hvlen hspan hnul
  exact ⟨v, hv, hres, by rw [hvlen, BitVec.ofNat_toNat, BitVec.setWidth_eq], hspan, hnul⟩

theorem isData_of_isDigit {b : Byte} (h : isDigit b = true) : isData b = true := by
  refine isData_iff.2 ⟨?_, ?_⟩ <;> rintro rfl <;> exact absurd h (by decide)

theorem frameLine_isData {p : List Byte} (hp : ∀ b ∈ p, isData b = true) : ∀ b ∈ frameLine p, isData b = true := by
  intro b hb
  rw [frameLine, List.mem_append, List.mem_append, List.mem_singleton] at hb
  rcases hb with (hb | rfl) | hb
  · exact hp b hb
  · decide
  · exact isData_of_isDigit (dec_digits _ b hb)

/-- READLINE changes no parameter. -/
theorem readlineRun_params (s : State) (xs : List Poll) : (readlineRun xs s).params = s.params := by
  induction xs generalizing s with
  | nil => rfl
  | cons x xs ih =>
    obtain ⟨t, ht⟩ := exec_answers .readline (s.meets x)
    have hkeeps : t.params = s.params := (exec_frame ht).1.params
    rw [readlineRun, ht]
    dsimp only
    split
    · exact hkeeps
    · rw [ih, hkeeps]

/-- READLINE has ended with LINE, and the line is `d` (41_line_reader.md R132). -/
structure State.Received (s : State) (d : List Byte) : Prop where
  result : s.res = .line
  text : s.line = d

theorem State.Received.intro {s : State} {d : List Byte} (hres : s.res = .line) (hlen : s.len.toNat = d.length)
    (htext : s.lbufSpan 0 d.length = d) : s.Received d :=
  ⟨hres, by rw [State.line, hlen, htext]⟩

section Receiving
variable {s : State} {d rest : List Byte} {xs : List Poll} {j : Nat} (hs : s.ReadyToRead) (hne : d ≠ [])
  (hdata : ∀ b ∈ d, isData b = true) (hfits : d.length < s.size.toNat) (htime : s.inTime (xs.take (j + 1)))
include hs hne hdata hfits htime

theorem received_lf (htake : s.takesAt xs d.length j)
    (hstream : s.rx ++ arrivals (xs.take (j + 1)) = d ++ chLF :: rest) : (readlineRun xs s).Received d := by
  obtain ⟨hres, -, hlen, htext, -⟩ := lineFeedEndsTheLine s d rest xs j hs hne hdata hfits htake hstream htime
  exact .intro hres hlen htext

/-- After a CR the line ends at any byte, and at the end of the grace window: an LF inside the window is the second
half of the boundary, anything else a CR exit. -/
theorem received_cr {i : Nat} {x y : Poll} (hpause : s.PausesAfterCr d xs i j x) (hy : xs[j]? = some y)
    (hstream : s.rx ++ arrivals (xs.take (j + 1)) = d ++ chCR :: rest)
    (hexit : expired s.params.deadlineCmp (y.1 - x.1) 50 = true ∨ rest ≠ []) : (readlineRun xs s).Received d := by
  by_cases hbare : expired s.params.deadlineCmp (y.1 - x.1) 50 = true ∨ ∃ b, rest.head? = some b ∧ b ≠ 0x0A
  · obtain ⟨hres, -, hlen, htext, -⟩ :=
      bareCrEndsTheLine s d rest xs i j x y hs hne hdata hfits hpause hy hstream htime hbare
    exact .intro hres hlen htext
  · obtain ⟨hopen, hhead⟩ := not_or.1 hbare
    obtain ⟨b, r, rfl⟩ := List.exists_cons_of_ne_nil (hexit.resolve_left hopen)
    obtain rfl : b = 0x0A := by
      by_contra hb
      exact hhead ⟨b, rfl, hb⟩
    obtain ⟨hres, -, hlen, htext, -⟩ := crLfEndsTheLineOnce s d r xs i j x y hs hne hdata hfits hpause hy hstream
      htime (Bool.eq_false_iff.2 hopen)
    exact .intro hres hlen htext

end Receiving

/-- Settles O34: the frame is received as a line without its terminator, and that line verifies. -/
theorem receivedFrameVerifies : Obligations.ReceivedFrameVerifies := by
  intro s p rest xs j hs hp hdata hroom hsize htime hends
  have hfits : (frameLine p).length < s.size.toNat := (frameLine_length_lt p 0x0A).trans_le hsize
  have hread : (readlineRun xs s).Received (frameLine p) := by
    simp only [dropLast_frame] at hends
    simp only [frame_eq, List.append_assoc, List.singleton_append] at hends
    rcases hends with ⟨htake, hstream⟩ | ⟨hstream, i, x, y, hpause, hy, hexit⟩
    · exact received_lf hs (frameLine_ne_nil p) (frameLine_isData hdata) hfits htime htake hstream
    · exact received_cr hs (frameLine_ne_nil p) (frameLine_isData hdata) hfits htime hpause hy hstream hexit
  obtain ⟨hres, hline⟩ := hread
  have hin : (readlineRun xs s).len.toNat ≤ (readlineRun xs s).params.lbufSize := by
    have := hs.sizeHigh
    rw [← line_length, hline, readlineRun_params]; omega
  obtain ⟨t, ht, hvalid, htlen, hspan, -⟩ := execVerify_frameLine hin hline
  obtain ⟨-, hmax⟩ := params_wf.1 hp
  exact ⟨t, ht, hres, hvalid, by rw [htlen, BitVec.toNat_ofNat, Nat.mod_eq_of_lt (by omega)], hspan⟩

end Sys2Proof.Machine

namespace Sys2Proof.Machine

/-! ## Proofs: the host procedures (45_host_procedures.md) -/

/-! ### Runs of host steps -/

/-- One step, then the rest of a run that ends as `o`. -/
theorem hostRun_head {s t : State} {n : Nat} {o : Host.Outcome State Fault Refusal} (h : hostStep s = .next t)
    (h' : hostRun n t = o) : hostRun (n + 1) s = o := (hostRun_step h n).trans h'

/-- Some number of host steps leads from `s` to `t`. -/
def State.HostReaches (s t : State) : Prop := ∃ n, hostRun n s = .next t

theorem State.HostReaches.of_step {s t : State} (h : hostStep s = .next t) : s.HostReaches t :=
  ⟨1, hostRun_step h 0⟩

theorem State.HostReaches.trans {s t u : State} (h : s.HostReaches t) (h' : t.HostReaches u) : s.HostReaches u := by
  obtain ⟨m, hm⟩ := h
  obtain ⟨n, hn⟩ := h'
  exact ⟨m + n, (hostRun_add m n s t hm).trans hn⟩

theorem State.HostReaches.head {s t u : State} (h : hostStep s = .next t) (h' : t.HostReaches u) :
    s.HostReaches u := .trans (.of_step h) h'

/-! ### One host step -/

/-- With no bus operation left, the host decides (log 18). -/
theorem hostStep_decide {s t : State} (hs : s.host.script = []) (ht : s.procStep = t) : hostStep s = .next t := by
  subst ht
  simp only [hostStep, hs]

/-- `rd NOW`, busy or idle, samples the clock (10_state.md R35). -/
theorem hostStep_rdNow {s : State} {rest : List ScriptOp} (hs : s.host.script = opRd .now :: rest) :
    hostStep s = .next { s with
      sinceSample := some 0, host := { s.host with script := rest, rdata := s.now } } := by
  simp only [hostStep, hs]
  exact busAccess_readNow _

/-- `rd REG` of settled results changes the host's copy alone. -/
theorem hostStep_rd_settled {s : State} {r : Reg} {rest : List ScriptOp} (hc : s.curOp = none)
    (hu : s.unsettled = false) (hr : r ≠ .now) (hs : s.host.script = opRd r :: rest) :
    hostStep s = .next { s with host := { s.host with script := rest, rdata := s.regValue r } } := by
  rw [hostStep_rd_idle hc hr (fun _ => hu) hs]
  simp only [hu, ite_self]

/-- `cmd MNEMONIC` on an idle block. -/
theorem hostStep_cmd {s : State} {i : Instr} {rest : List ScriptOp} (hc : s.curOp = none)
    (hs : s.host.script = opCmd i :: rest) :
    hostStep s = .next (({ s with host := { s.host with script := rest } } : State).latch (encode i)) := by
  rw [hostStep_wr hs, writeReg_cmd (by exact hc), accept_legal (decodeWord_encode i)]

/-- `wait` on an idle block is over at its first STATUS read, which settles the results (20_memory.md R59). -/
theorem hostStep_wait_idle {s : State} {rest : List ScriptOp} (hc : s.curOp = none)
    (hs : s.host.script = .wait :: rest) :
    hostStep s = .next { s with
      unsettled := false, host := { s.host with script := rest, rdata := s.statusWord } } := by
  have hread : s.busRead Reg.status.offset.toNat .w4 =
      { s with unsettled := false, host := { s.host with rdata := s.statusWord } } := by
    rw [busRead_reg (regionOf_offset .status) (ofOffset_offset .status)]
    simp [Reg.isResult, statusRead_eq, hc]
  have hbusy : statusBusy s.statusWord = false := by rw [statusBusy, statusWord_busy, hc]; rfl
  simp [hostStep, hs, State.waited, hread, hbusy]

/-- With no procedure running a call is not refused for the one that runs (45_host_procedures.md R189). -/
theorem hostRunning_false {s : State} (hs : s.host.script = []) (hp : s.host.proc = .none) :
    s.hostRunning = false := by
  simp [State.hostRunning, hs, hp]

/-! ### waitUntilAvailable (R185) -/

/-- Settles O60: the call, its NOW read and the decision after it, then one decision a clause. -/
theorem waitUntilAvailablePolls : Obligations.WaitUntilAvailablePolls := by
  intro s t0 timeout hs
  refine ⟨fun hp => ?_, fun hp => ⟨fun hav => ?_, fun hav => ?_⟩, fun hp => ⟨fun hexp => ?_, fun hexp => ?_⟩⟩
  · have hcall : startCall s (.waitUntilAvailable timeout) =
        .next (s.called.await [opRd .now] (.availNow timeout)) := by
      simp [startCall, hostRunning_false hs hp]
    exact ⟨_, _, hcall, hostStep_rdNow rfl, hostStep_decide rfl rfl⟩
  all_goals refine hostStep_decide hs ?_
  · have hav : statusRxAv s.host.rdata = true := hav
    simp [State.procStep, hp, hav, State.returns]
  · have hav : statusRxAv s.host.rdata = false := hav
    simp [State.procStep, hp, hav, State.await, opRd, Reg.offset]
  · simp [State.procStep, hp, hexp, State.returns]
  · simp [State.procStep, hp, hexp, State.await, opRd, Reg.offset]

/-! ### receiveData: its call and its decisions (R181, R184) -/

theorem procStep_recvNow {s : State} {pfx : List Byte} {size : Nat} {timeout : Word}
    (hp : s.host.proc = .recvNow pfx size timeout) :
    s.procStep = s.await
      [opWr .size (BitVec.ofNat 32 size), opWr .t0 s.host.rdata, opWr .tmo timeout] (.recvLoop pfx) := by
  simp only [State.procStep, hp]

theorem startCall_receiveData {s : State} (hs : s.host.script = []) (hp : s.host.proc = .none) (pfx : List Byte)
    {size : Nat} (timeout : Word) (hlo : 1 ≤ size) (hhi : size ≤ s.params.lbufSize) :
    startCall s (.receiveData pfx size timeout) =
      .next (s.called.await [opRd .now] (.recvNow pfx size timeout)) := by
  have hin : ¬ (size < 1 ∨ s.params.lbufSize < size) := by omega
  simp only [startCall, hostRunning_false hs hp, hin, Bool.false_eq_true, if_false]

/-- The five host steps before receiveData's loop: the NOW read, the decision, and the writes of SIZE, T0 and TMO. -/
theorem hostRun_recvNow {s : State} {pfx : List Byte} {size : Nat} {timeout : Word} (hc : s.curOp = none)
    (hs : s.host.script = [opRd .now]) (hp : s.host.proc = .recvNow pfx size timeout) :
    hostRun 5 s = .next { s with
      size := BitVec.ofNat 16 size, t0 := s.now, tmo := timeout, sinceSample := some 0
      host := { s.host with script := [], proc := .recvLoop pfx, rdata := s.now } } := by
  have hsize : (BitVec.ofNat 32 size).setWidth 16 = BitVec.ofNat 16 size := by simp
  rw [← hsize]
  refine hostRun_head (hostStep_rdNow hs) (hostRun_head (hostStep_decide rfl (procStep_recvNow hp)) ?_)
  refine hostRun_head (hostStep_wr_operand (r := .size) nofun hc rfl) ?_
  refine hostRun_head (hostStep_wr_operand (r := .t0) nofun hc rfl) ?_
  exact hostRun_head (hostStep_wr_operand (r := .tmo) nofun hc rfl) rfl

/-- Settles O56: the call, then `hostRun_recvNow`. -/
theorem receiveDataSetsItsDeadline : Obligations.ReceiveDataSetsItsDeadline := by
  intro s pfx size timeout _ hc hs hp hlo hhi
  exact ⟨_, _, startCall_receiveData hs hp pfx timeout hlo hhi, hostRun_recvNow hc rfl rfl, rfl, rfl, rfl⟩

/-- A STATUS word's RES field shows the result of the given code (10_state.md R23). -/
theorem statusRes_eq_iff (w : Word) (r : Res) : statusRes w = r.code ↔ (w.extractLsb' 4 4).toNat = r.code.toNat :=
  BitVec.toNat_inj.symm

/-- READLINE timed out: receiveData fails (R184). -/
theorem procStep_recvLine_timeout {s : State} {pfx : List Byte} (hp : s.host.proc = .recvLine pfx)
    (hres : (s.host.rdata.extractLsb' 4 4).toNat = 3) : s.procStep = s.returns .failed := by
  have hres : statusRes s.host.rdata = Res.timeout.code := (statusRes_eq_iff _ _).2 hres
  simp only [State.procStep, hp, hres, if_true]

/-- VERIFY found the line VALID: on to LEN and the payload (R181). -/
theorem procStep_recvFrame_valid {s : State} {pfx : List Byte} (hp : s.host.proc = .recvFrame pfx)
    (hres : (s.host.rdata.extractLsb' 4 4).toNat = 6) : s.procStep = s.await [opRd .len] (.recvLen pfx) := by
  have hres : statusRes s.host.rdata = Res.valid.code := (statusRes_eq_iff _ _).2 hres
  simp only [State.procStep, hp, hres, if_true]

/-- VERIFY did not find the line VALID: back to the head of the loop (R181). -/
theorem procStep_recvFrame_retry {s : State} {pfx : List Byte} (hp : s.host.proc = .recvFrame pfx)
    (hres : (s.host.rdata.extractLsb' 4 4).toNat ≠ 6) : s.procStep = s.await [] (.recvLoop pfx) := by
  have hres : statusRes s.host.rdata ≠ Res.valid.code := fun h => hres ((statusRes_eq_iff _ _).1 h)
  simp only [State.procStep, hp, hres, if_false]

/-- Settles O57: the call refused for its size, then one decision a clause. -/
theorem receiveDataFailures : Obligations.ReceiveDataFailures := by
  intro s hs
  refine ⟨fun pfx size timeout hp hsize => ?_, fun pfx hp hres => ?_, fun pfx hp hres => ?_⟩
  · simp only [startCall, hostRunning_false hs hp, hsize, if_true, Bool.false_eq_true, if_false]
    rfl
  · exact hostStep_decide hs (procStep_recvLine_timeout hp hres)
  · exact hostStep_decide hs (procStep_recvFrame_retry hp (by omega))

/-! ### The deadline of a retry (R181, R188) -/

/-- The script line writes none of the registers that hold receiveData's size and deadline. -/
def OpKeepsDeadline (op : ScriptOp) : Prop :=
  opWritesReg .size op = false ∧ opWritesReg .t0 op = false ∧ opWritesReg .tmo op = false

theorem opKeepsDeadline_read (a : BitVec 14) (w : Width) : OpKeepsDeadline (.acc (.read a w)) :=
  ⟨rfl, rfl, rfl⟩

theorem opKeepsDeadline_wait : OpKeepsDeadline .wait := ⟨rfl, rfl, rfl⟩

theorem opKeepsDeadline_cmd (i : Instr) : OpKeepsDeadline (opCmd i) := ⟨rfl, rfl, rfl⟩

/-- receiveData's loop goes on or is over, and its deadline stands. -/
structure State.InLoopOrOver (t : State) : Prop where
  proc : t.host.proc.inReceiveLoop = true ∨ t.host.proc = .none
  script : ∀ op ∈ t.host.script, OpKeepsDeadline op

theorem returns_inLoopOrOver {s : State} (hs : s.host.script = []) (r : ProcResult) :
    (s.returns r).InLoopOrOver :=
  ⟨.inr rfl, by simp [State.returns, hs]⟩

section Await
variable (s : State) {p : Proc} (hp : p.inReceiveLoop = true)
include hp

theorem await_nil_inLoopOrOver : (s.await [] p).InLoopOrOver := ⟨.inl hp, by simp [State.await]⟩

theorem await_read_inLoopOrOver (a : BitVec 14) (w : Width) : (s.await [.acc (.read a w)] p).InLoopOrOver :=
  ⟨.inl hp, by simp [State.await, opKeepsDeadline_read]⟩

theorem await_run_inLoopOrOver (i : Instr) (r : Reg) : (s.await (opRun i ++ [opRd r]) p).InLoopOrOver :=
  ⟨.inl hp, by simp [State.await, opRun, opRd, opKeepsDeadline_read, opKeepsDeadline_wait, opKeepsDeadline_cmd]⟩

end Await

theorem prefixFilter_inLoopOrOver {s : State} (hs : s.host.script = []) (pfx : List Byte) :
    (s.prefixFilter pfx).InLoopOrOver := by
  rw [State.prefixFilter]
  split
  · exact returns_inLoopOrOver (by exact hs) _
  · exact await_nil_inLoopOrOver s rfl

/-- A decision in the loop, position by position. -/
theorem procStep_inLoopOrOver {s : State} (hs : s.host.script = []) (hloop : s.host.proc.inReceiveLoop = true) :
    s.procStep.InLoopOrOver := by
  rw [State.procStep]
  cases hp : s.host.proc with
  | recvLoop pfx => exact await_run_inLoopOrOver s rfl .readline .status
  | recvLine pfx =>
    dsimp only
    split
    · exact returns_inLoopOrOver hs _
    · exact await_run_inLoopOrOver s rfl .verify .status
  | recvFrame pfx =>
    dsimp only
    split
    · exact await_read_inLoopOrOver s rfl _ _
    · exact await_nil_inLoopOrOver s rfl
  | recvLen pfx => exact await_read_inLoopOrOver _ rfl _ _
  | recvByte pfx pos left =>
    cases left with
    | zero => exact prefixFilter_inLoopOrOver (by exact hs) pfx
    | succ n => exact await_read_inLoopOrOver _ rfl _ _
  | _ => simp [hp, Proc.inReceiveLoop] at hloop

/-- Settles O58: a host step with no bus operation left is a decision. -/
theorem retriesKeepTheDeadline : Obligations.RetriesKeepTheDeadline := by
  intro s t hs hloop ht
  obtain rfl : s.procStep = t := Host.Outcome.next.inj ((hostStep_decide hs rfl).symm.trans ht)
  obtain ⟨hproc, hscript⟩ := procStep_inLoopOrOver hs hloop
  exact ⟨hproc, hscript⟩

/-! ### The host copies a buffer (R181, R186; log 18) -/

/-- The positions `pos k left` of a procedure copy the bytes `f 0, f 1, ...` one by one with the reads `rd k`: the
shape that receiveData's copy of LBUF and sendData's copy of OBUF share. The block stands still meanwhile. -/
structure State.Copies (s : State) (pos : Nat → Nat → Proc) (rd : Nat → ScriptOp) (f : Nat → Byte) (size : Nat) :
    Prop where
  reads : ∀ (h : HostAgent) (k : Nat), k < size → h.script = [rd k] →
    hostStep { s with host := h } = .next { s with host := { h with script := [], rdata := (f k).setWidth 32 } }
  goesOn : ∀ (t : State) (k n : Nat), t.host.proc = pos k (n + 1) →
    t.procStep = t.keep.await [rd (k + 1)] (pos (k + 1) n)

/-- The host has copied the first `k` bytes, read byte `k`, and is to decide at `p`. -/
def HostAgent.hasRead (h : HostAgent) (f : Nat → Byte) (k : Nat) (p : Proc) : HostAgent :=
  { h with script := [], proc := p, rdata := (f k).setWidth 32, buf := (List.range k).map f }

/-- The host keeps the byte it has read. -/
theorem keep_hasRead (s : State) (h : HostAgent) (f : Nat → Byte) (k : Nat) (p : Proc) :
    ({ s with host := h.hasRead f k p } : State).keep =
      { s with host := { h.hasRead f k p with buf := (List.range (k + 1)).map f } } := by
  simp [State.keep, HostAgent.hasRead, List.range_succ]

/-- The copy reaches any position below the size, by induction on it: one decision and one read a byte. -/
theorem State.Copies.run {s : State} {pos : Nat → Nat → Proc} {rd : Nat → ScriptOp} {f : Nat → Byte} {size : Nat}
    (hcopy : s.Copies pos rd f size) {h : HostAgent} {k left : Nat} (hk : k < size) (hs : h.script = [rd 0])
    (hp : h.proc = pos 0 (k + left)) (hb : h.buf = []) :
    ({ s with host := h } : State).HostReaches { s with host := h.hasRead f k (pos k left) } := by
  induction k generalizing left with
  | zero =>
    refine .of_step ?_
    rw [hcopy.reads h 0 hk hs]
    simp [HostAgent.hasRead, hp, hb]
  | succ k ih =>
    have hbefore := ih (left := left + 1) (by omega) (by rw [hp]; congr 1; omega)
    refine hbefore.trans (.head (hostStep_decide rfl (hcopy.goesOn _ k left rfl)) (.of_step ?_))
    rw [keep_hasRead]
    exact hcopy.reads _ (k + 1) hk rfl

theorem copies_lbuf {s : State} (hp : s.params.wf = true) (hc : s.curOp = none) (hu : s.unsettled = false)
    (pfx : List Byte) : s.Copies (.recvByte pfx) opRdbLbuf s.lbuf s.params.lbufSize where
  reads _ _ hk hs := hostStep_rdbLbuf (s := { s with host := _ }) hp hc hu hk hs
  goesOn t k n h := by simp only [State.procStep, h]

theorem copies_obuf {s : State} (hp : s.params.wf = true) (hc : s.curOp = none) (hu : s.unsettled = false) :
    s.Copies .sendByte opRdbObuf s.obuf s.params.obufSize where
  reads _ _ hk hs := hostStep_rdbObuf (s := { s with host := _ }) hp hc hu hk hs
  goesOn t k n h := by simp only [State.procStep, h]

/-! ### receiveData after VALID (R181 to R183) -/

section Prefix
variable {s : State} {pfx payload : List Byte} {nul : Byte} (hbuf : s.host.buf = payload ++ [nul])
include hbuf

theorem prefixFilter_match (h : pfx <+: payload) :
    s.prefixFilter pfx = ({ s with host := { s.host with buf := payload.drop pfx.length ++ [nul] } } : State).returns
      (.received (payload.drop pfx.length)) := by
  simp [State.prefixFilter, hbuf, h, List.drop_append_of_le_length h.length_le]

theorem prefixFilter_discard (h : ¬ pfx <+: payload) : s.prefixFilter pfx = s.await [] (.recvLoop pfx) := by
  simp [State.prefixFilter, hbuf, h]

end Prefix

/-- VALID: the host reads LEN and copies LBUF up to the NUL after the payload, and comes to `State.prefixFilter`. -/
theorem recvFrame_filters {s : State} {pfx : List Byte} (hp : s.params.wf = true) (hc : s.curOp = none)
    (hu : s.unsettled = false) (hs : s.host.script = []) (hproc : s.host.proc = .recvFrame pfx)
    (hres : (s.host.rdata.extractLsb' 4 4).toNat = 6) (hlen : s.len.toNat < s.params.lbufSize) :
    ∃ f : HostAgent, f.script = [] ∧ f.result = s.host.result ∧
      f.buf = s.lbufSpan 0 s.len.toNat ++ [s.lbuf s.len.toNat] ∧
      s.HostReaches (({ s with host := f } : State).prefixFilter pfx) := by
  have hleft : (s.len.setWidth 32).toNat = s.len.toNat + 0 := BitVec.toNat_setWidth_of_le (by decide)
  refine ⟨{ s.host.hasRead s.lbuf s.len.toNat (.recvByte pfx s.len.toNat 0) with
    buf := (List.range (s.len.toNat + 1)).map s.lbuf }, rfl, rfl, ?_, ?_⟩
  · simp [State.lbufSpan, List.range_succ]
  · refine .head (hostStep_decide hs (procStep_recvFrame_valid hproc hres)) ?_
    refine .head (hostStep_rd_settled (r := .len) hc hu nofun rfl) ?_
    refine .head (hostStep_decide rfl rfl) ?_
    refine .trans ((copies_lbuf hp hc hu pfx).run hlen rfl (congrArg (Proc.recvByte pfx 0) hleft) rfl) ?_
    exact .of_step (hostStep_decide rfl (congrArg (State.prefixFilter · pfx) (keep_hasRead s _ s.lbuf _ _)))

/-- Settles O59: `recvFrame_filters`, then the two ways `State.prefixFilter` ends. -/
theorem receiveDataAppliesThePrefix : Obligations.ReceiveDataAppliesThePrefix := by
  intro s pfx hp hc hu hs hproc hres hlen
  obtain ⟨f, hscript, hresult, hbuf, n, hn⟩ := recvFrame_filters hp hc hu hs hproc hres hlen
  by_cases hpre : pfx <+: s.lbufSpan 0 s.len.toNat
  · rw [prefixFilter_match hbuf hpre] at hn
    exact ⟨n, _, hn, hscript, rfl, fun _ => ⟨rfl, rfl, rfl⟩, fun h => absurd hpre h⟩
  · rw [prefixFilter_discard hbuf hpre] at hn
    exact ⟨n, _, hn, rfl, rfl, fun h => absurd h hpre, fun _ => ⟨rfl, hresult⟩⟩

/-! ### sendData (R186) -/

theorem startCall_sendData {s : State} {p : List Byte} (hs : s.host.script = []) (hp : s.host.proc = .none)
    (hfit : p.length ≤ s.params.lbufSize) :
    startCall s (.sendData p) = .next (s.called.await (opLoad p ++ opEncode) .sendDone) := by
  simp only [startCall, hostRunning_false hs hp, Nat.not_lt.2 hfit, Bool.false_eq_true, if_false]

/-- The payload is loaded and ENCODE accepted (R77, R186). -/
def State.encoding (s : State) (p : List Byte) : State :=
  ({ s.setLbufs 0 p with len := BitVec.ofNat 16 p.length, host := { s.host with script := [.wait] } } : State).latch
    (encode .encode)

theorem hostRun_sendData {s : State} {p : List Byte} (hp : s.params.wf = true) (hc : s.curOp = none)
    (hfit : p.length ≤ s.params.lbufSize) (hs : s.host.script = opLoad p ++ opEncode) :
    hostRun (p.length + 2) s = .next (s.encoding p) := by
  rw [hostRun_add (p.length + 1) 1 s _ (hostRun_load hp hc hfit hs)]
  exact hostRun_head (hostStep_cmd hc rfl) rfl

section Encoding
variable {s : State} {p : List Byte} (hp : s.params.wf = true) (hfit : p.length ≤ s.params.lbufSize)
include hp hfit

theorem encoding_len : (s.encoding p).len.toNat = p.length := by
  obtain ⟨-, hmax⟩ := params_wf.1 hp
  exact (BitVec.toNat_ofNat ..).trans (Nat.mod_eq_of_lt (by omega))

theorem encoding_line : (s.encoding p).line = p := by
  rw [State.line, encoding_len hp hfit]
  exact lbufSpan_setLbufs s 0 p

/-- The block's step leaves the frame of the payload in OBUF and its length in OLEN (42_frame_codec.md R170). -/
theorem blockStep_encoding : ∃ c, blockStep (s.encoding p) = .next c ∧ c.params = s.params ∧ c.curOp = none ∧
    c.host = (s.encoding p).host ∧ c.olen.toNat = (frame p s.term).length ∧
    c.obufSpan (frame p s.term).length = frame p s.term := by
  have hin : (s.encoding p).len.toNat ≤ (s.encoding p).params.lbufSize := (encoding_len hp hfit).trans_le hfit
  have holen := (frame_fits (s := s.encoding p) hp hin).1
  have hstep := (blockStep_latched rfl (decodeWord_encode .encode)).trans (execEncode_done hin)
  rw [encoding_line hp hfit] at hstep holen
  exact ⟨_, hstep, rfl, rfl, rfl, holen, obufSpan_setObufs _ _⟩

end Encoding

theorem procStep_sendDone {s : State} (hp : s.host.proc = .sendDone) :
    s.procStep = s.await [opRd .olen] .sendLen := by
  simp only [State.procStep, hp]

theorem procStep_sendLen {s : State} {n : Nat} (hp : s.host.proc = .sendLen) (hn : s.host.rdata.toNat = n + 1) :
    s.procStep = ({ s with host := { s.host with buf := [] } } : State).await [opRdbObuf 0] (.sendByte 0 n) := by
  simp only [State.procStep, hp, hn]

theorem procStep_sendByte_last {s : State} {k : Nat} (hp : s.host.proc = .sendByte k 0) :
    s.procStep = s.keep.returns (.sent s.keep.host.buf) := by
  simp only [State.procStep, hp]

/-- The results settled, the host reads OLEN, copies OBUF and hands it over. -/
theorem sendDone_sends {s : State} {out : List Byte} (hp : s.params.wf = true) (hc : s.curOp = none)
    (hu : s.unsettled = false) (hs : s.host.script = []) (hproc : s.host.proc = .sendDone) (hout : 0 < out.length)
    (hfit : out.length ≤ s.params.obufSize) (holen : s.olen.toNat = out.length)
    (hobuf : s.obufSpan out.length = out) :
    ∃ t, s.HostReaches t ∧ t.host.proc = .none ∧ t.host.script = [] ∧ t.host.result = some (.sent out) := by
  obtain ⟨n, hn⟩ : ∃ n, out.length = n + 1 := ⟨out.length - 1, by omega⟩
  have hread : (s.olen.setWidth 32).toNat = n + 1 :=
    (BitVec.toNat_setWidth_of_le (by decide)).trans (holen.trans hn)
  have hkept : (List.range (n + 1)).map s.obuf = out := by rw [← hn]; exact hobuf
  refine ⟨{ s with host := { s.host.hasRead s.obuf n .none with buf := out, result := some (.sent out) } },
    ?_, rfl, rfl, rfl⟩
  refine .head (hostStep_decide hs (procStep_sendDone hproc)) ?_
  refine .head (hostStep_rd_settled (r := .olen) hc hu nofun rfl) ?_
  refine .head (hostStep_decide rfl (procStep_sendLen rfl hread)) ?_
  refine .trans ((copies_obuf hp hc hu).run (k := n) (left := 0) (by omega) rfl rfl rfl) ?_
  refine .of_step (hostStep_decide rfl ?_)
  rw [procStep_sendByte_last rfl, keep_hasRead, hkept]
  rfl

/-- Settles O55: the call and the load, ENCODE, and the way from `wait` to the frame handed over. -/
theorem sendDataBuildsTheFrame : Obligations.SendDataBuildsTheFrame := by
  intro s p hp hc hs hproc hfit
  obtain ⟨c, hblock, hcp, hcc, hch, holen, hobuf⟩ :=
    blockStep_encoding (s := s.called.await (opLoad p ++ opEncode) .sendDone) hp hfit
  have hsize : (frame p s.term).length ≤ c.params.obufSize := by
    obtain ⟨-, hhi⟩ := frame_length_bounds p s.term
    rw [hcp]
    exact hhi.trans (Nat.add_le_add_right hfit 7)
  have hwait := hostStep_wait_idle (rest := []) hcc (by rw [hch]; rfl)
  obtain ⟨d, hsends, hdone⟩ := sendDone_sends (s := { c with
    unsettled := false, host := { c.host with script := [], rdata := c.statusWord } })
    (by rw [hcp]; exact hp) hcc rfl rfl (by rw [hch]; rfl) (by simp [frame]) hsize holen hobuf
  obtain ⟨n, hn⟩ := State.HostReaches.head hwait hsends
  exact ⟨_, _, c, n, d, startCall_sendData hs hproc hfit, hostRun_sendData hp hc hfit rfl, hblock, hn, hdone⟩

end Sys2Proof.Machine

namespace Sys2Proof.Machine

/-! ## Proofs: faults (60_exceptions.md R204) -/

/-! ### A misaligned host access, the one fault there is -/

/-- The access meets the alignment rule (R53). -/
def accessAligned : Access → Bool
  | .read a w => aligned a.toNat w
  | .write a w _ => aligned a.toNat w

theorem busAccess_of_accessAligned {x : Access} (h : accessAligned x = true) (s : State) :
    ∃ t, busAccess s x = .next t := by
  cases x with
  | read a w => exact ⟨_, busAccess_read h s⟩
  | write a w v => exact ⟨_, busAccess_write h s v⟩

theorem busAccess_of_not_accessAligned {x : Access} (h : accessAligned x = false) (s : State) :
    busAccess s x = .fault (.hostAccess x) := by
  cases x with
  | read a w => exact (busAccess_misaligned (ne_true_of_eq_false h) s 0).1
  | write a w v => exact (busAccess_misaligned (ne_true_of_eq_false h) s v).2

/-- The fault of an access names it. -/
theorem busAccess_fault_iff (s : State) (x : Access) (r : Fault) :
    busAccess s x = .fault r ↔ r = .hostAccess x ∧ accessAligned x = false := by
  cases hx : accessAligned x with
  | true =>
    obtain ⟨t, ht⟩ := busAccess_of_accessAligned hx s
    simp [ht]
  | false => simp [busAccess_of_not_accessAligned hx, eq_comm]

/-- Neither `wait` nor a decision of a procedure faults. -/
theorem hostStep_fault_iff (s : State) (r : Fault) :
    hostStep s = .fault r ↔
      ∃ x ops, s.host.script = .acc x :: ops ∧ r = .hostAccess x ∧ accessAligned x = false := by
  unfold hostStep
  split
  · next x ops hs => simp [hs, busAccess_fault_iff]
  · next hs => simp [hs]
  · next hs => simp [hs]

/-! ### The other moves do not fault -/

/-- No block step faults: every command answers. -/
theorem blockStep_not_fault (s : State) (r : Fault) : blockStep s ≠ .fault r := by
  unfold blockStep
  split
  · nofun
  · split
    · next i _ =>
      obtain ⟨t, ht⟩ := exec_answers i s
      simp [ht]
    · nofun

theorem clockTick_not_fault (s : State) (d : Word) (r : Fault) : clockTick s d ≠ .fault r := by
  unfold clockTick
  split
  · nofun
  · split <;> nofun

/-- A call starts, returns or is refused. -/
theorem startCall_not_fault (s : State) (c : Call) (r : Fault) : startCall s c ≠ .fault r := by
  unfold startCall
  split
  · nofun
  · cases c with
    | receiveData pfx size timeout => dsimp only; split <;> nofun
    | waitUntilAvailable timeout => nofun
    | sendData p => dsimp only; split <;> nofun
    | program ops => nofun

/-- Of all moves only the host's can fault. -/
theorem step_fault_iff (s : State) (r : Fault) :
    step s = .fault r ↔ ∃ rest, s.env = .host :: rest ∧ hostStep { s with env := rest } = .fault r := by
  cases henv : s.env with
  | nil => simp [step_of_env_nil henv, blockStep_not_fault]
  | cons e rest =>
    rw [step_of_env_cons henv]
    cases e with
    | block => simp [eventStep, blockStep_not_fault]
    | host => simp [eventStep]
    | call c => simp [eventStep, startCall_not_fault]
    | arrive bs => simp [eventStep]
    | tick d => simp [eventStep, clockTick_not_fault]
    | rst => simp [eventStep]

/-- Settles O52: only the host's move faults, and it does on a misaligned access alone. -/
theorem onlyMisalignedHostAccessesFault : Obligations.OnlyMisalignedHostAccessesFault := by
  intro s r
  rw [step_fault_iff]
  constructor
  · rintro ⟨rest, henv, hfault⟩
    obtain ⟨x, ops, hs, hr, hx⟩ := (hostStep_fault_iff _ r).1 hfault
    exact ⟨rest, x, ops, henv, hs, hr, by cases x <;> exact hx⟩
  · rintro ⟨rest, x, ops, henv, hs, hr, hx⟩
    exact ⟨rest, henv, (hostStep_fault_iff _ r).2 ⟨x, ops, hs, hr, by cases x <;> exact hx⟩⟩

end Sys2Proof.Machine

namespace Sys2Proof.Machine

/-! ## Proofs: reset and hazards (70_reset_and_hazards.md R220, R221, R230) -/

/-- A busy block drops a CMD write and sets OVR (R37, R230). -/
theorem writeReg_cmd_busy {s : State} (hc : s.curOp ≠ none) (v : Word) :
    s.writeReg .cmd v = { s with ovr := true } :=
  if_pos (Option.isSome_iff_ne_none.2 hc)

/-- Settles O7: a write at CMD's offset is `State.writeReg`, whose busy branch sets OVR alone. -/
theorem commandWhileBusyIsDropped : Obligations.CommandWhileBusyIsDropped := by
  intro s v hc
  exact (busAccess_writeReg s .cmd v).trans (congrArg _ (writeReg_cmd_busy hc v))

/-- RST takes effect at once, whatever the block is doing (R221). -/
theorem step_of_env_rst {s : State} {rest : List Event} (h : s.env = .rst :: rest) :
    step s = .next ({ s with env := rest } : State).rst := step_of_env_cons h

/-- Settles O45: the step on RST is `State.rst`, which gives every field of the block its reset value and keeps
the port and the clock. -/
theorem resetInputGivesResetValues : Obligations.ResetInputGivesResetValues := by
  intro s rest h
  refine ⟨_, step_of_env_rst h, ?_⟩
  and_intros <;> rfl

/-- Settles O46: the spec's default LBUF_SIZE is one of the legal ones. -/
theorem resetStateMeetsInvariant : Obligations.ResetStateMeetsInvariant :=
  have hdefault : Params.default.wf = true := by decide
  ⟨resetWith_inv hdefault, fun _ hp => resetWith_inv hp⟩

end Sys2Proof.Machine
